-- ==== Sys2Proof/Word.lean ====
section
/-! DEFINITION. The word and byte types of the block (spec/00_scope.md R7: every register, word and field is
unsigned). -/

namespace Sys2Proof

/-- A register or a header or trailer word: 32 bits, unsigned (R7, R23). -/
abbrev Word := BitVec 32

/-- One byte of the frame buffer (R8, R31). -/
abbrev Byte := BitVec 8

end Sys2Proof
end

