-- ==== Sys2Proof/Config.lean ====
section
/-! DEFINITION. What an implementation fixes: the parameters the spec leaves open (spec/00_scope.md R5,
spec/20_memory.md R60) and the constants it gives (R6). -/

namespace Sys2Proof

/-- The implementation's parameters, as plain data (R5: "The model takes these named parameters as arguments").
DESIGN CHOICE (log entry 3): they are carried in State, where no step changes them. -/
structure Config where
  /-- FB_CAP, the frame buffer's capacity in bytes (R5: 12 ≤ FB_CAP ≤ 2^32 − 1). -/
  fbCap : Nat
  /-- FAW, the Frame Alignment Word constant (R5: any 32-bit value). -/
  faw : Word
  /-- NOCRC, the "no CRC present" trailer sentinel (R5: any 32-bit value). -/
  nocrc : Word
  /-- fb_init for the indices 0, 1, 2, … in order (R5, R32). DESIGN CHOICE (log entry 4): a list, as plain data. -/
  fbInit : List Byte
  /-- fb_init for every index past the end of `fbInit` (log entry 4). -/
  fbInitRest : Byte
  /-- REG_BASE_ADDR, where the register space stands in the host's address map (R60: no rule depends on it). -/
  regBaseAddr : Nat
  /-- FB_BASE_ADDR, where the frame-buffer space stands in the host's address map (R60: no rule depends on it). -/
  fbBaseAddr : Nat
  deriving DecidableEq, Repr

namespace Config

/-! Constants of R6. -/

/-- HDR_LEN: FAW word and count/length word, in bytes. -/
def hdrLen : Nat := 8
/-- TRL_LEN, in bytes. -/
def trlLen : Nat := 4
/-- MIN_FRAME_LENGTH, in bytes. -/
def minFrameLength : Nat := 12
/-- MAX_FRAME_LENGTH = (2^20 − 1) * 4 bytes (R6; spec/90_conflicts.md C1). -/
def maxFrameLength : Nat := 0x3FFFFC
/-- CRC_POLY. -/
def crcPoly : Word := 0xEDB88320#32
/-- COUNT_MAX. -/
def countMax : Nat := 4095
/-- NO_EXPECT: the ARG value that gives VALIDATE no expected length. -/
def noExpect : Word := 0xFFFFFFFF#32

/-! The parameters of the machine at hand. Each is a constant with no body: nothing can be proved about its value
(R5, R32, R60: OPEN). -/

/-- The open part of FB_CAP; `fbCapOpen` bounds it as R5 says. -/
opaque fbCapRaw : BitVec 32
/-- FAW of the machine at hand. -/
opaque fawOpen : Word
/-- NOCRC of the machine at hand. -/
opaque nocrcOpen : Word
/-- fb_init of the machine at hand: the power-up byte of each index. -/
opaque fbInitByte : Nat → Byte
/-- REG_BASE_ADDR of the machine at hand. -/
opaque regBaseAddrOpen : Nat
/-- FB_BASE_ADDR of the machine at hand. -/
opaque fbBaseAddrOpen : Nat

/-- FB_CAP of the machine at hand: an open value of the range 12 to 2^32 − 1 that R5 gives, each value of it
possible. -/
def fbCapOpen : Nat := max 12 fbCapRaw.toNat

/-- The parameters of the machine at hand, every one open. -/
def machine : Config where
  fbCap := fbCapOpen
  faw := fawOpen
  nocrc := nocrcOpen
  fbInit := (List.range fbCapOpen).map fbInitByte
  fbInitRest := fbInitByte fbCapOpen
  regBaseAddr := regBaseAddrOpen
  fbBaseAddr := fbBaseAddrOpen

end Config

end Sys2Proof
end

