-- ==== Sys2Proof/Syntax.lean ====
section
/-! DEFINITION. The block's commands, one constructor per row of spec/opcode_table.json (spec/30_encoding.md R73). -/

namespace Sys2Proof

/-- A command. The command word has no operand fields (R71): a command's operands are always BASE, ARG and CTRL.RO,
so no constructor has an argument. -/
inductive Instr where
  /-- NOP, OP 0x00 (R160). -/
  | nop
  /-- INIT, OP 0x01 (R101). -/
  | init
  /-- IS_VRL, OP 0x02 (R102). -/
  | isVrl
  /-- GET_LENGTH, OP 0x03 (R103). -/
  | getLength
  /-- SET_LENGTH, OP 0x04 (R104). -/
  | setLength
  /-- GET_COUNT, OP 0x05 (R105). -/
  | getCount
  /-- SET_COUNT, OP 0x06 (R106). -/
  | setCount
  /-- COMPUTE_CRC, OP 0x07 (R140). -/
  | computeCrc
  /-- UPDATE_CRC, OP 0x08 (R141). -/
  | updateCrc
  /-- CHECK_CRC, OP 0x09 (R142). -/
  | checkCrc
  /-- CLEAR_CRC, OP 0x0A (R143). -/
  | clearCrc
  /-- VALIDATE, OP 0x0B (R161). -/
  | validate
  deriving DecidableEq, Repr

/-- The column "mutating" of R73: the commands that CTRL.RO guards (R24). -/
def Instr.mutating : Instr → Bool
  | .nop => false
  | .init => true
  | .isVrl => false
  | .getLength => false
  | .setLength => true
  | .getCount => false
  | .setCount => true
  | .computeCrc => false
  | .updateCrc => true
  | .checkCrc => false
  | .clearCrc => true
  | .validate => false

/-- The column "reads ARG" of R73. -/
def Instr.readsArg : Instr → Bool
  | .nop => false
  | .init => false
  | .isVrl => false
  | .getLength => false
  | .setLength => true
  | .getCount => false
  | .setCount => true
  | .computeCrc => false
  | .updateCrc => false
  | .checkCrc => false
  | .clearCrc => false
  | .validate => true

/-- The column "writes RESULT" of R73. -/
def Instr.writesResult : Instr → Bool
  | .nop => false
  | .init => false
  | .isVrl => false
  | .getLength => true
  | .setLength => false
  | .getCount => true
  | .setCount => false
  | .computeCrc => true
  | .updateCrc => true
  | .checkCrc => true
  | .clearCrc => false
  | .validate => false

end Sys2Proof
end

