-- ==== Sys2Proof/WellFormed.lean ====
section
/-! DEFINITION. Which terms are well formed: the parameters' constraints (spec/00_scope.md R5) and the commands. -/

namespace Sys2Proof

/-- The constraint R5 puts on the parameters: 12 ≤ FB_CAP ≤ 2^32 − 1. FAW, NOCRC and fb_init may be anything. -/
def Config.wf (c : Config) : Bool :=
  decide (Config.minFrameLength ≤ c.fbCap) && decide (c.fbCap ≤ 2 ^ 32 - 1)

/-- Every command is well formed: the word carries no immediate and no register number (R71), so a constructor has
nothing to check. The checks on a word's reserved fields are the decoder's (R70, R72, R74). -/
def Instr.wf : Instr → Bool
  | .nop => true
  | .init => true
  | .isVrl => true
  | .getLength => true
  | .setLength => true
  | .getCount => true
  | .setCount => true
  | .computeCrc => true
  | .updateCrc => true
  | .checkCrc => true
  | .clearCrc => true
  | .validate => true

end Sys2Proof
end

