-- ==== Sys2Proof/Decode.lean ====
section
/-! DEFINITION. Decoding a command word and encoding a command (spec/30_encoding.md R70 to R75). A command word
reaches the block whole, as a 32-bit register value (R53, R70); it is never stored as bytes (R64). -/

namespace Sys2Proof

/-! ## The fields of CMDW (R71) -/

/-- OP, bits 7:0. -/
def cmdOp (v : Word) : BitVec 8 := v.extractLsb' 0 8

/-- S, bit 8: the strict-validation request, reserved (R72). -/
def cmdStrict (v : Word) : Bool := v.getLsbD 8

/-- RSV, bits 31:9, reserved. -/
def cmdReserved (v : Word) : BitVec 23 := v.extractLsb' 9 23

/-- Why a command word is illegal (R70). The block reports all three alike, with ERR_ILLEGAL. -/
inductive DecodeError where
  /-- A bit of RSV is set (R72). -/
  | reservedBits
  /-- S = 1 (R72). -/
  | strictBit
  /-- OP is one of 0x0C to 0xFF (R74). -/
  | reservedOpcode (op : BitVec 8)
  deriving DecidableEq, Repr

/-- A row of the opcode map. -/
structure OpRow where
  op : BitVec 8
  instr : Instr
  deriving DecidableEq, Repr

/-- The opcode map (R73). -/
def opcodeMap : List OpRow :=
  [ ⟨0x00#8, .nop⟩,
    ⟨0x01#8, .init⟩,
    ⟨0x02#8, .isVrl⟩,
    ⟨0x03#8, .getLength⟩,
    ⟨0x04#8, .setLength⟩,
    ⟨0x05#8, .getCount⟩,
    ⟨0x06#8, .setCount⟩,
    ⟨0x07#8, .computeCrc⟩,
    ⟨0x08#8, .updateCrc⟩,
    ⟨0x09#8, .checkCrc⟩,
    ⟨0x0A#8, .clearCrc⟩,
    ⟨0x0B#8, .validate⟩ ]

/-- The command an opcode selects, if it is not reserved (R73, R74). -/
def opcodeInstr (op : BitVec 8) : Option Instr :=
  (opcodeMap.find? (fun r => r.op == op)).map (·.instr)

/-- Decode a command word (R70): the reserved fields must be 0 and OP must be in the map. DESIGN CHOICE (log entry
9): where several fields are illegal, the name is that of the first of RSV, S, OP; the block tells none of them. -/
def decode (v : Word) : Except DecodeError Instr :=
  if cmdReserved v ≠ 0#23 then .error .reservedBits
  else if cmdStrict v then .error .strictBit
  else
    match opcodeInstr (cmdOp v) with
    | some i => .ok i
    | none => .error (.reservedOpcode (cmdOp v))

/-! ## Encoding (R71, R73) -/

/-- OP of a command (R73). -/
def Instr.opcode : Instr → BitVec 8
  | .nop => 0x00#8
  | .init => 0x01#8
  | .isVrl => 0x02#8
  | .getLength => 0x03#8
  | .setLength => 0x04#8
  | .getCount => 0x05#8
  | .setCount => 0x06#8
  | .computeCrc => 0x07#8
  | .updateCrc => 0x08#8
  | .checkCrc => 0x09#8
  | .clearCrc => 0x0A#8
  | .validate => 0x0B#8

/-- The command word of a command: OP with S = 0 and RSV = 0, that is `zext_32(OP)` (R73). -/
def encode (i : Instr) : Word := i.opcode.setWidth 32

/-- The command word that the opcode table's number `w` of `nbits` bits stands for: bit 0 is the least significant
bit, and every bit from `nbits` up is 0. -/
def tableWord (nbits w : Nat) : Word := BitVec.ofNat 32 (w % 2 ^ nbits)

/-- The instruction the decoder reads from a table word of `nbits` bits. A word of more than 32 bits is no command
word (R75: "a fixed 32-bit length"). -/
def decodeTableWord (nbits w : Nat) : Option Instr :=
  if nbits ≤ 32 then (decode (tableWord nbits w)).toOption else none

end Sys2Proof
end

