-- ==== Sys2Proof/Machine/State.lean ====
section
/-! DEFINITION. The state of the block (spec/10_state.md R20 to R33), the host's actions on it, the reasons a step can
stop, and the state after reset (spec/70_reset_and_hazards.md R200). -/

namespace Sys2Proof.Machine

/-- One of the five actions through which the host reaches the block (R20). A register access carries its width in
bits, since R55 gives an access of another width than 32 a response; a register offset is one of 0x00 to 0xFF
(R23, R50). FB has byte accesses only (R54). Log entry 7. -/
inductive HostAction where
  /-- `RegRead(off)`, of `width` bits. -/
  | regRead (off : BitVec 8) (width : Nat)
  /-- `RegWrite(off, v)`, of `width` bits. -/
  | regWrite (off : BitVec 8) (width : Nat) (v : Word)
  /-- `FbRead(i)`. -/
  | fbRead (i : Nat)
  /-- `FbWrite(i, b)`. -/
  | fbWrite (i : Nat) (b : Byte)
  /-- `Reset`. -/
  | reset
  deriving DecidableEq, Repr

/-- What the host got back for its last action. DESIGN CHOICE (log entry 2): it stands on the host's side of the port;
no command and no rule of the block reads it. -/
inductive HostResponse where
  /-- No access has been answered: after power-up, and after a Reset action, which returns nothing. -/
  | none
  /-- A register or FB write was taken. -/
  | done
  /-- The 32-bit value of a RegRead. -/
  | word (v : Word)
  /-- The byte of an FbRead. -/
  | byte (b : Byte)
  /-- The bus-error response of an access the block does not decode (R187): it carries no data. -/
  | busError
  deriving DecidableEq, Repr

/-- The machine's state. `ro` to `fb` are the block's, and the block has no other (R33). `cfg` holds the
implementation's parameters (R5), which no step changes. `pending` and `response` are the model's own fields for the
host's side of the port (log entries 1, 2). -/
structure State where
  /-- The parameters FB_CAP, FAW, NOCRC, fb_init, REG_BASE_ADDR and FB_BASE_ADDR (R5, R60). -/
  cfg : Config
  /-- CTRL.RO, the read-only frame flag: CTRL bit 0 (R24). CTRL[31:1] is hardwired 0. -/
  ro : Bool
  /-- BASE: the byte offset in FB of the frame's first header byte (R25). -/
  base : Word
  /-- ARG: the operand of SET_LENGTH, SET_COUNT and VALIDATE (R26). -/
  arg : Word
  /-- STATUS: the report of the last command (R28). -/
  status : Word
  /-- RESULT: the scalar result of the last value-producing command (R29). -/
  result : Word
  /-- FB, as the cells that differ from fb_init (R31, R32; its canonical form is `Memory.wf`). -/
  fb : List Host.Cell
  /-- The host's actions still to be issued, in its issue order (R20, R62). -/
  pending : List HostAction
  /-- What the host's last action got back (R20, R187). -/
  response : HostResponse
  deriving DecidableEq, Repr

/-- Why a step can stop with a fault. -/
inductive Fault where
  /-- The bus-error response (R187), raised by the host port (`serve`) and by nothing else: an FB access at an index of
  FB_CAP or above (R54), or a register access that is misaligned or not 32 bits wide (R55). Safe: the access changes
  no block state, and `State.afterBusError` is the state the run goes on from, since "Such a fault is never final"
  (log entry 5). -/
  | busError
  deriving DecidableEq, Repr

/-- Why a step can be refused. -/
inductive Refusal where
  /-- Raised by an arm of `exec` whose instruction has no meaning in the model yet; no arm of this model is one. Safe:
  the run stops by name. -/
  | notModelled (mnemonic : String)
  deriving DecidableEq, Repr

/-- The machine right after power-up and reset (R200): every register at 0, FB holding fb_init (nothing listed), the
host having issued nothing. The parameters are those of the machine at hand, every one open. -/
def State.reset : State where
  cfg := Config.machine
  ro := false
  base := 0x00000000#32
  arg := 0x00000000#32
  status := 0x00000000#32
  result := 0x00000000#32
  fb := []
  pending := []
  response := .none

end Sys2Proof.Machine
end

