-- ==== Sys2Proof/Machine/Memory.lean ====
section
/-! DEFINITION. The frame buffer as data (spec/10_state.md R31, R32): bytes, their canonical listing, and the
big-endian words the commands read and write (spec/20_memory.md R51, R52, R56). -/

namespace Sys2Proof.Machine

/-- What an index that the listing does not name reads as: fb_init (R32). -/
def unlistedByte (c : Config) (i : Nat) : Byte := c.fbInit.getD i c.fbInitRest

namespace Memory

/-- The byte at index `a`: the first cell listed for it, else fb_init. -/
def read (c : Config) : List Host.Cell → Nat → Byte
  | [], a => unlistedByte c a
  | (k, b) :: m, a => if k = a then b else read c m a

/-- The listing without index `a`. -/
def erase (m : List Host.Cell) (a : Nat) : List Host.Cell := m.filter (fun x => x.1 != a)

/-- The listing with the cell `(a, b)` put before the first cell of a higher index. -/
def place (a : Nat) (b : Byte) : List Host.Cell → List Host.Cell
  | [] => [(a, b)]
  | x :: m => if a < x.1 then (a, b) :: x :: m else x :: place a b m

/-- Write byte `b` at index `a`. Writing what fb_init holds there takes the index off the listing. -/
def write (c : Config) (m : List Host.Cell) (a : Nat) (b : Byte) : List Host.Cell :=
  if b = unlistedByte c a then erase m a else place a b (erase m a)

/-- The canonical form: indices strictly rising, no cell equal to what its index reads as unlisted, every index inside
FB. -/
abbrev wf (c : Config) (m : List Host.Cell) : Prop :=
  m.Pairwise (fun x y => x.1 < y.1) ∧ ∀ x ∈ m, x.2 ≠ unlistedByte c x.1 ∧ x.1 < c.fbCap

end Memory

namespace State

/-- `FB[i]` (R8). The model gives it a value for every natural `i`; every use of the spec has `i < FB_CAP`. -/
def fbByte (s : State) (i : Nat) : Byte := Memory.read s.cfg s.fb i

/-- `FB[i] <- b`. -/
def setFbByte (s : State) (i : Nat) (b : Byte) : State := { s with fb := Memory.write s.cfg s.fb i b }

/-- The bytes `FB[a], FB[a+1], …, FB[a+n-1]` in index order. -/
def fbBytes (s : State) (a n : Nat) : List Byte := (List.range n).map (fun k => s.fbByte (a + k))

/-- `MemRead(a, 4)` (R8): the big-endian word at index `a`, the most significant byte at the lowest index (R51). It
needs no alignment (R56). -/
def fbWord (s : State) (a : Nat) : Word :=
  s.fbByte a ++ s.fbByte (a + 1) ++ s.fbByte (a + 2) ++ s.fbByte (a + 3)

/-- `MemWrite(a, 4, v)` (R8): the big-endian word `v` at index `a` (R51). -/
def setFbWord (s : State) (a : Nat) (v : Word) : State :=
  (((s.setFbByte a (v.extractLsb' 24 8)).setFbByte (a + 1) (v.extractLsb' 16 8)).setFbByte (a + 2)
    (v.extractLsb' 8 8)).setFbByte (a + 3) (v.extractLsb' 0 8)

end State

end Sys2Proof.Machine
end

