-- ==== Sys2Proof/Machine/Crc.lean ====
section
/-! DEFINITION. The CRC-32 engine (spec/41_crc_engine.md R130 to R134) as a pure function over a list of bytes. -/

namespace Sys2Proof.Machine

/-- One iteration, for one data bit (R131): `>>` is a logical shift, and the mask is all ones exactly when the low bit
of the accumulator differs from the data bit. -/
def crcBit (crc : Word) (d : Bool) : Word :=
  (crc >>> 1) ^^^ (Config.crcPoly &&& (if (crc.getLsbD 0 ^^ d) then 0xFFFFFFFF#32 else 0x00000000#32))

/-- One octet (R132): eight iterations, least significant bit first. -/
def crcOctet (crc : Word) (v : Byte) : Word :=
  crcBit (crcBit (crcBit (crcBit (crcBit (crcBit (crcBit (crcBit crc
    (v.getLsbD 0)) (v.getLsbD 1)) (v.getLsbD 2)) (v.getLsbD 3))
    (v.getLsbD 4)) (v.getLsbD 5)) (v.getLsbD 6)) (v.getLsbD 7)

/-- `crc_acc` (R133): the accumulator after the bytes in order, from "the initial value (zero)". -/
def crcAcc (bytes : List Byte) : Word := bytes.foldl crcOctet 0x00000000#32

/-- `bitrev32` (R134): bit `i` of the result is bit `31 − i` of `x`. -/
def bitrev32 (x : Word) : Word := x.reverse

/-- `CRC32` (R133): the bit reversal of the accumulator, with no final exclusive-or. -/
def crc32 (bytes : List Byte) : Word := bitrev32 (crcAcc bytes)

/-- The source's way to reverse the bits, in four stages (R134): swap adjacent bits, swap bit pairs, swap nibbles,
reverse the byte order. -/
def bitrev32Stages (x : Word) : Word :=
  let x1 := ((x >>> 1) &&& 0x55555555#32) ||| ((x &&& 0x55555555#32) <<< 1)
  let x2 := ((x1 >>> 2) &&& 0x33333333#32) ||| ((x1 &&& 0x33333333#32) <<< 2)
  let x3 := ((x2 >>> 4) &&& 0x0F0F0F0F#32) ||| ((x2 &&& 0x0F0F0F0F#32) <<< 4)
  (x3 <<< 24) ||| ((x3 &&& 0x0000FF00#32) <<< 8) ||| ((x3 >>> 8) &&& 0x0000FF00#32) ||| (x3 >>> 24)

/-! The equivalent non-reflected form (R137 item 5): polynomial 0x04C11DB7, the register shifting left, the bits of an
octet fed least significant first. -/

/-- One data bit of the MSB-first form. -/
def crcMsbBit (crc : Word) (d : Bool) : Word :=
  (crc <<< 1) ^^^ (if (crc.getLsbD 31 ^^ d) then 0x04C11DB7#32 else 0x00000000#32)

/-- The data bits of an octet in the order they are fed, bit 0 first. -/
def octetBits (v : Byte) : List Bool := (List.range 8).map (fun k => v.getLsbD k)

/-- The MSB-first CRC of a byte string. -/
def crcMsbFirst (bytes : List Byte) : Word := (bytes.flatMap octetBits).foldl crcMsbBit 0x00000000#32

end Sys2Proof.Machine
end

