-- ==== Sys2Proof/Machine/Flags.lean ====
section
/-! DEFINITION. STATUS: its fields (spec/10_state.md R28), the error codes (spec/60_exceptions.md R180) and VALIDATE's
reason codes (spec/42_control_and_validation.md R162). -/

namespace Sys2Proof.Machine

/-- The errors a command can end in (R180). -/
inductive CmdError where
  /-- ERR_ILLEGAL: the CMD word is illegal. -/
  | illegal
  /-- ERR_READ_ONLY: CTRL.RO = 1 and the command is mutating. -/
  | readOnly
  /-- ERR_BOUNDS: an access would pass the end of FB, or a length exceeds MAX_FRAME_LENGTH. -/
  | bounds
  /-- ERR_ARG: a bad length or count argument. -/
  | arg
  /-- ERR_MALFORMED: the stored length is below 12, or the stored frame extends past FB. -/
  | malformed
  deriving DecidableEq, Repr

/-- The code in STATUS.ERR (R180; 0x00 is OK). -/
def CmdError.code : CmdError → BitVec 8
  | .illegal => 0x01#8
  | .readOnly => 0x02#8
  | .bounds => 0x03#8
  | .arg => 0x04#8
  | .malformed => 0x05#8

/-- VALIDATE's findings (R162). -/
inductive Reason where
  /-- VALID: every check passed. -/
  | valid
  /-- NO_FAW: header word 0 is not FAW. -/
  | noFaw
  /-- LEN_BELOW_MIN: stored length below 12. -/
  | lenBelowMin
  /-- LEN_EXCEEDS_BUFFER: the stored frame passes the end of FB. -/
  | lenExceedsBuffer
  /-- LEN_MISMATCH: an expected length was given and differs from the stored one. -/
  | lenMismatch
  /-- CRC_MISMATCH: the trailer is neither NOCRC nor the computed CRC. -/
  | crcMismatch
  deriving DecidableEq, Repr

/-- The code in STATUS.REASON (R162). -/
def Reason.code : Reason → BitVec 4
  | .valid => 0#4
  | .noFaw => 1#4
  | .lenBelowMin => 2#4
  | .lenExceedsBuffer => 3#4
  | .lenMismatch => 4#4
  | .crcMismatch => 5#4

/-- The result fields `finish(flags)` may list; an unlisted field is 0 (R8). -/
structure ResultFlags where
  isvrl : Bool := false
  crcok : Bool := false
  nocrc : Bool := false
  valid : Bool := false
  reason : BitVec 4 := 0#4
  deriving DecidableEq, Repr

/-- STATUS from its fields (R28): `0[31:20], REASON[19:16], 0[15:12], VALID[11], NOCRC[10], CRCOK[9], ISVRL[8],
ERR[7:0]`. -/
def packStatus (err : BitVec 8) (f : ResultFlags) : Word :=
  0#12 ++ f.reason ++ 0#4 ++ BitVec.ofBool f.valid ++ BitVec.ofBool f.nocrc ++ BitVec.ofBool f.crcok
    ++ BitVec.ofBool f.isvrl ++ err

/-! The fields of a STATUS word, as software reads them (R28, R163). -/

/-- STATUS.ERR. -/
def statusErr (v : Word) : BitVec 8 := v.extractLsb' 0 8
/-- STATUS.ISVRL. -/
def statusIsVrl (v : Word) : Bool := v.getLsbD 8
/-- STATUS.CRCOK. -/
def statusCrcOk (v : Word) : Bool := v.getLsbD 9
/-- STATUS.NOCRC. -/
def statusNoCrc (v : Word) : Bool := v.getLsbD 10
/-- STATUS.VALID: the Boolean "is valid" view (R163). -/
def statusValid (v : Word) : Bool := v.getLsbD 11
/-- STATUS.REASON: the "reason" view (R163). -/
def statusReason (v : Word) : BitVec 4 := v.extractLsb' 16 4

end Sys2Proof.Machine
end

