-- ==== Sys2Proof/Machine/Operands.lean ====
section
/-! DEFINITION. The operands a command reads (spec/30_encoding.md R84): BASE and ARG as numbers, and the frame's
header, body and trailer at BASE (R76 to R79), in unbounded arithmetic (spec/00_scope.md R7). -/

namespace Sys2Proof.Machine

/-! ## Header word 1 (R76 to R78) -/

/-- FRAME_COUNT, bits 31:20. -/
def headerCount (w1 : Word) : BitVec 12 := w1.extractLsb' 20 12

/-- FRAME_LENGTH_WORDS, bits 19:0. -/
def headerLenWords (w1 : Word) : BitVec 20 := w1.extractLsb' 0 20

/-- The length in bytes that header word 1 encodes: "byte length = word count × 4" (R77). -/
def headerLength (w1 : Word) : Nat := (headerLenWords w1).toNat * 4

/-- Header word 1 from a count and a length in words (R78): `{c[11:0], (n / 4)[19:0]}`. -/
def packHeader (count : BitVec 12) (lenWords : BitVec 20) : Word := count ++ lenWords

namespace State

/-- BASE as a number. -/
def baseOff (s : State) : Nat := s.base.toNat

/-- ARG as a number. -/
def argVal (s : State) : Nat := s.arg.toNat

/-- Header word 0, at BASE (R77). -/
def word0 (s : State) : Word := s.fbWord s.baseOff

/-- Header word 1, at BASE + 4 (R77). -/
def word1 (s : State) : Word := s.fbWord (s.baseOff + 4)

/-- L, the stored length in bytes (R77). -/
def storedLen (s : State) : Nat := headerLength s.word1

/-- `HeaderFits(n)` (R79). -/
def headerFits (s : State) (n : Nat) : Bool := decide (s.baseOff + n ≤ s.cfg.fbCap)

/-- `StoredLenOK` (R79). -/
def storedLenOk (s : State) : Bool :=
  decide (Config.minFrameLength ≤ s.storedLen) && decide (s.baseOff + s.storedLen ≤ s.cfg.fbCap)

/-- The trailer's index, `BASE + L − 4` (R77); used only when `StoredLenOK`. -/
def trailerAddr (s : State) : Nat := s.baseOff + s.storedLen - 4

/-- The trailer (R76). -/
def trailer (s : State) : Word := s.fbWord s.trailerAddr

/-- The body: the `L − 12` bytes from BASE + 8 (R76, R77). -/
def bodyBytes (s : State) : List Byte := s.fbBytes (s.baseOff + 8) (s.storedLen - 12)

/-- `FrameCRC` (R135). -/
def frameCrc (s : State) : Word := crc32 s.bodyBytes

end State

end Sys2Proof.Machine
end

