-- ==== Sys2Proof/Machine/Ops.lean ====
section
/-! DEFINITION. How a command ends: the block's one error operation `raise CmdError` (spec/00_scope.md R8,
spec/60_exceptions.md R182, R185), `finish`, and the ordered checks in front of a command's writes (R183). The block has
no trap entry and no return from one (R185, R188). -/

namespace Sys2Proof.Machine

/-- `raise CmdError(e)`: STATUS holds the code and nothing else changes (R8, R182). -/
def raiseCmdError (e : CmdError) (s : State) : State := { s with status := packStatus e.code {} }

/-- `finish(f)`: STATUS holds the listed result fields with ERR = 0 (R8). -/
def finish (f : ResultFlags) (s : State) : State := { s with status := packStatus 0x00#8 f }

/-- `RESULT <- v`. -/
def setResult (v : Word) (s : State) : State := { s with result := v }

/-- A command's checks in their normative order: each a condition that fails the command and the error it then
reports (R183). -/
abbrev Checks := List (Bool × CmdError)

/-- The error of the first check that fails (R183: "the first in the command's check order wins"). -/
def firstFailure : Checks → Option CmdError
  | [] => none
  | (failed, e) :: rest => if failed then some e else firstFailure rest

/-- End a command that runs `checks` on `s` and, if all pass, leaves `done`: every check comes before every write
(R100, R182). -/
def conclude (checks : Checks) (s done : State) : State :=
  match firstFailure checks with
  | some e => raiseCmdError e s
  | none => done

/-- The checks of COMPUTE_CRC, CHECK_CRC and, after their own, of every command that uses the trailer (R183). -/
def trailerChecks (s : State) : Checks := [(!s.headerFits 8, .bounds), (!s.storedLenOk, .malformed)]

/-- The clearing of the trailer to the sentinel (R143): CLEAR_CRC's action, with the trailer at index `a`. -/
def clearTrailerAt (a : Nat) (s : State) : State := s.setFbWord a s.cfg.nocrc

end Sys2Proof.Machine
end

