-- ==== Sys2Proof/Machine/Control.lean ====
section
/-! DEFINITION. NOP and VALIDATE (spec/42_control_and_validation.md R160 to R163). -/

namespace Sys2Proof.Machine

/-- NOP (R160): STATUS <- 0. -/
def execNop (s : State) : Host.Outcome State Fault Refusal := .next (finish {} s)

/-- VALIDATE's ordered checks on the frame (R161): the first that fails is the finding. -/
def validateReason (s : State) : Reason :=
  if s.word0 ≠ s.cfg.faw then .noFaw
  else if s.storedLen < Config.minFrameLength then .lenBelowMin
  else if s.cfg.fbCap < s.baseOff + s.storedLen then .lenExceedsBuffer
  else if s.arg ≠ Config.noExpect ∧ s.storedLen ≠ s.argVal then .lenMismatch
  else if s.trailer ≠ s.cfg.nocrc ∧ s.trailer ≠ s.frameCrc then .crcMismatch
  else .valid

/-- VALIDATE (R161): the finding into VALID and REASON, as a result and not an error. -/
def execValidate (s : State) : Host.Outcome State Fault Refusal :=
  .next (conclude [(!s.headerFits 8, .bounds)] s
    (finish { valid := validateReason s == .valid, reason := (validateReason s).code } s))

end Sys2Proof.Machine
end

