-- ==== Sys2Proof/Machine/CrcCommands.lean ====
section
/-! DEFINITION. The trailer commands (spec/41_crc_engine.md R140 to R144): COMPUTE_CRC, UPDATE_CRC, CHECK_CRC and
CLEAR_CRC. -/

namespace Sys2Proof.Machine

/-- COMPUTE_CRC (R140): the frame CRC into RESULT. -/
def execComputeCrc (s : State) : Host.Outcome State Fault Refusal :=
  .next (conclude (trailerChecks s) s (finish {} (setResult s.frameCrc s)))

/-- UPDATE_CRC (R141): the frame CRC into the trailer and RESULT, also when it equals NOCRC (R144). -/
def execUpdateCrc (s : State) : Host.Outcome State Fault Refusal :=
  .next (conclude ((s.ro, .readOnly) :: trailerChecks s) s
    (finish {} (setResult s.frameCrc (s.setFbWord s.trailerAddr s.frameCrc))))

/-- CHECK_CRC (R142): CRCOK when the trailer is NOCRC or the computed CRC, NOCRC when it is the sentinel; RESULT gets
the computed CRC in either case. -/
def execCheckCrc (s : State) : Host.Outcome State Fault Refusal :=
  .next (conclude (trailerChecks s) s
    (finish { nocrc := s.trailer == s.cfg.nocrc,
              crcok := s.trailer == s.cfg.nocrc || s.trailer == s.frameCrc }
      (setResult s.frameCrc s)))

/-- CLEAR_CRC (R143): the sentinel into the trailer. -/
def execClearCrc (s : State) : Host.Outcome State Fault Refusal :=
  .next (conclude ((s.ro, .readOnly) :: trailerChecks s) s
    (finish {} (clearTrailerAt s.trailerAddr s)))

end Sys2Proof.Machine
end

