-- ==== Sys2Proof/Machine/HeaderCodec.lean ====
section
/-! DEFINITION. The header codec commands (spec/40_header_codec.md): INIT, IS_VRL, GET_LENGTH, SET_LENGTH, GET_COUNT
and SET_COUNT. -/

namespace Sys2Proof.Machine

/-- INIT (R101): the minimal valid frame at BASE. -/
def execInit (s : State) : Host.Outcome State Fault Refusal :=
  .next (conclude [(s.ro, .readOnly), (!s.headerFits 12, .bounds)] s
    (finish {} (((s.setFbWord s.baseOff s.cfg.faw).setFbWord (s.baseOff + 4) 0x00000003#32).setFbWord
      (s.baseOff + 8) s.cfg.nocrc)))

/-- IS_VRL (R102): whether the word at BASE is FAW. -/
def execIsVrl (s : State) : Host.Outcome State Fault Refusal :=
  .next (conclude [(!s.headerFits 4, .bounds)] s (finish { isvrl := s.word0 == s.cfg.faw } s))

/-- GET_LENGTH (R103): the stored length in bytes, with no validation. -/
def execGetLength (s : State) : Host.Outcome State Fault Refusal :=
  .next (conclude [(!s.headerFits 8, .bounds)] s
    (finish {} (setResult ((headerLenWords s.word1).setWidth 32 * 4#32) s)))

/-- SET_LENGTH (R104): the length in ARG into the header, keeping the count, and the sentinel into the new trailer. -/
def execSetLength (s : State) : Host.Outcome State Fault Refusal :=
  .next (conclude
    [ (s.ro, .readOnly),
      (decide (s.argVal % 4 ≠ 0) || decide (s.argVal < Config.minFrameLength), .arg),
      (decide (Config.maxFrameLength < s.argVal), .bounds),
      (!s.headerFits s.argVal, .bounds) ] s
    (finish {} (clearTrailerAt (s.baseOff + s.argVal - 4)
      (s.setFbWord (s.baseOff + 4) (packHeader (headerCount s.word1) (BitVec.ofNat 20 (s.argVal / 4)))))))

/-- GET_COUNT (R105): the frame count. -/
def execGetCount (s : State) : Host.Outcome State Fault Refusal :=
  .next (conclude [(!s.headerFits 8, .bounds)] s
    (finish {} (setResult ((headerCount s.word1).setWidth 32) s)))

/-- SET_COUNT (R106): the count in ARG into the header, keeping the length bits, and the sentinel into the trailer. -/
def execSetCount (s : State) : Host.Outcome State Fault Refusal :=
  .next (conclude
    ((s.ro, .readOnly) :: (decide (Config.countMax < s.argVal), .arg) :: trailerChecks s) s
    (finish {} (clearTrailerAt s.trailerAddr
      (s.setFbWord (s.baseOff + 4) (packHeader (s.arg.extractLsb' 0 12) (headerLenWords s.word1))))))

end Sys2Proof.Machine
end

