-- ==== Sys2Proof/Machine/Dispatch.lean ====
section
/-! DEFINITION. One arm per command (spec/30_encoding.md R73). -/

namespace Sys2Proof.Machine

/-- Execute one command, atomically (R70). -/
def exec (i : Instr) (s : State) : Host.Outcome State Fault Refusal :=
  match i with
  | .nop => Sys2Proof.Machine.execNop s
  | .init => Sys2Proof.Machine.execInit s
  | .isVrl => Sys2Proof.Machine.execIsVrl s
  | .getLength => Sys2Proof.Machine.execGetLength s
  | .setLength => Sys2Proof.Machine.execSetLength s
  | .getCount => Sys2Proof.Machine.execGetCount s
  | .setCount => Sys2Proof.Machine.execSetCount s
  | .computeCrc => Sys2Proof.Machine.execComputeCrc s
  | .updateCrc => Sys2Proof.Machine.execUpdateCrc s
  | .checkCrc => Sys2Proof.Machine.execCheckCrc s
  | .clearCrc => Sys2Proof.Machine.execClearCrc s
  | .validate => Sys2Proof.Machine.execValidate s

end Sys2Proof.Machine
end

