-- ==== Sys2Proof/Machine/HostPort.lean ====
section
/-! DEFINITION. The host port: what each of the host's five actions does (spec/10_state.md R20 to R29,
spec/20_memory.md R50 to R60, spec/60_exceptions.md R187, spec/70_reset_and_hazards.md R200, R201), and the issue of a
command by a write to CMD (spec/30_encoding.md R70). -/

namespace Sys2Proof.Machine

/-- The registers of the register space (R23). -/
inductive Reg where
  | ctrl
  | base
  | arg
  | cmd
  | status
  | result
  deriving DecidableEq, Repr

/-- A register's offset (R23). -/
def Reg.offset : Reg → BitVec 8
  | .ctrl => 0x00#8
  | .base => 0x04#8
  | .arg => 0x08#8
  | .cmd => 0x0C#8
  | .status => 0x10#8
  | .result => 0x14#8

/-- The register at an offset; none at a reserved one (R23). -/
def regAt (off : BitVec 8) : Option Reg :=
  if off = 0x00#8 then some .ctrl
  else if off = 0x04#8 then some .base
  else if off = 0x08#8 then some .arg
  else if off = 0x0C#8 then some .cmd
  else if off = 0x10#8 then some .status
  else if off = 0x14#8 then some .result
  else none

/-- Whether the block decodes a register access: 32 bits wide at a 4-aligned offset (R55). -/
def regAccessOk (off : BitVec 8) (width : Nat) : Bool := decide (off.toNat % 4 = 0) && decide (width = 32)

/-- The value a register reads as (R24 to R29): CTRL[31:1] and CMD read 0. -/
def readReg (s : State) : Reg → Word
  | .ctrl => (BitVec.ofBool s.ro).setWidth 32
  | .base => s.base
  | .arg => s.arg
  | .cmd => 0x00000000#32
  | .status => s.status
  | .result => s.result

/-- The value at an offset; a reserved offset reads 0 (R23, R55). -/
def readRegAt (s : State) (off : BitVec 8) : Word :=
  match regAt off with
  | some r => readReg s r
  | none => 0x00000000#32

/-- The command that a write of `v` to CMD issues (R70): an illegal word ends with ERR_ILLEGAL (R72, R74). -/
def issueCommand (v : Word) (s : State) : Host.Outcome State Fault Refusal :=
  match decode v with
  | .ok i => exec i s
  | .error _ => .next (raiseCmdError .illegal s)

/-- Write `v` to a register (R24 to R29): CTRL keeps bit 0 only, STATUS and RESULT ignore the write, and CMD issues a
command. -/
def writeReg (s : State) (r : Reg) (v : Word) : Host.Outcome State Fault Refusal :=
  match r with
  | .ctrl => .next { s with ro := v.getLsbD 0 }
  | .base => .next { s with base := v }
  | .arg => .next { s with arg := v }
  | .cmd => issueCommand v s
  | .status => .next s
  | .result => .next s

/-- Write `v` at an offset; a reserved offset ignores it (R23, R55). -/
def writeRegAt (s : State) (off : BitVec 8) (v : Word) : Host.Outcome State Fault Refusal :=
  match regAt off with
  | some r => writeReg s r v
  | none => .next s

/-- The `Reset` action (R200): the registers to their reset values; FB, the parameters and the host's further actions
unchanged. -/
def resetRegisters (s : State) : State :=
  { s with ro := false, base := 0x00000000#32, arg := 0x00000000#32, status := 0x00000000#32,
           result := 0x00000000#32 }

/-- The state with the host's answer `r`. -/
def State.respond (s : State) (r : HostResponse) : State := { s with response := r }

/-- Serve one action of the host (R20). An access that the block does not decode gets the bus error (R187). -/
def serve (a : HostAction) (s : State) : Host.Outcome State Fault Refusal :=
  match a with
  | .regRead off width =>
      if regAccessOk off width then .next (s.respond (.word (readRegAt s off))) else .fault .busError
  | .regWrite off width v =>
      if regAccessOk off width then writeRegAt (s.respond .done) off v else .fault .busError
  | .fbRead i => if i < s.cfg.fbCap then .next (s.respond (.byte (s.fbByte i))) else .fault .busError
  | .fbWrite i b => if i < s.cfg.fbCap then .next ((s.setFbByte i b).respond .done) else .fault .busError
  | .reset => .next ((resetRegisters s).respond .none)

/-- One step of the machine: the block serves the host's next action (R62), or, where the host has none left, waits
(R202) with nothing changed. -/
def hostStep (s : State) : Host.Outcome State Fault Refusal :=
  match s.pending with
  | [] => .next s
  | a :: rest => serve a { s with pending := rest }

/-- The state after a bus error: no block state has changed, the host has its bus-error response, and its next action
follows (R187: "Such a fault is never final and is never cleared"). -/
def State.afterBusError (s : State) : State := { s with pending := s.pending.tail, response := .busError }

/-- Where the host writes to have `w` of `nbits` bits run as a command next: a write to CMD in front of the host's
other actions. An access of more than 32 bits keeps its width, and so gets the bus error. -/
def cmdWriteFirst (s : State) (nbits w : Nat) : State :=
  { s with pending := .regWrite Reg.cmd.offset (max 32 nbits) (tableWord nbits w) :: s.pending }

/-- The host address of a register offset (R60). -/
def regAddress (c : Config) (off : BitVec 8) : Nat := c.regBaseAddr + off.toNat

/-- The host address of an FB index (R60). -/
def fbAddress (c : Config) (i : Nat) : Nat := c.fbBaseAddr + i

end Sys2Proof.Machine
end

