-- ==== Sys2Proof/Machine/Step.lean ====
section
/-! DEFINITION. One step of the machine (spec/10_state.md R20: "A model gives each action one step"). -/

namespace Sys2Proof.Machine

/-- One step: the host's next action, served. -/
def step (s : State) : Host.Outcome State Fault Refusal := hostStep s

/-- The state whose very next step runs the command word `w` of `nbits` bits: the host's write of it to CMD comes
first. The block fetches nothing (spec/20_memory.md R64), so this write is where a command comes from. Log entry 6. -/
def State.withFetchWord (s : State) (nbits w : Nat) : State := cmdWriteFirst s nbits w

end Sys2Proof.Machine
end

