-- ==== Sys2Proof/Machine/HostSyntax.lean ====
section
/-! DEFINITION. The host's command syntax (spec/30_encoding.md R82) and pseudo-commands (R83), as the actions they
stand for, and the host's numbering of frames (spec/40_header_codec.md R107). -/

namespace Sys2Proof.Machine

/-- One line of the host syntax. -/
inductive HostLine where
  /-- `wr CTRL, v` -/
  | wrCtrl (v : Word)
  /-- `wr BASE, v` -/
  | wrBase (v : Word)
  /-- `wr ARG, v` -/
  | wrArg (v : Word)
  /-- `rd r`, for STATUS, RESULT, CTRL, BASE or ARG -/
  | rd (r : Reg)
  /-- `cmd MNEMONIC` -/
  | cmd (i : Instr)
  /-- `cmdw v`: a raw word, for illegal encodings -/
  | cmdw (v : Word)
  /-- `fbw i, b0 b1 …` -/
  | fbw (i : Nat) (bytes : List Byte)
  /-- `fbr i` -/
  | fbr (i : Nat)
  /-- `reset` -/
  | reset
  /-- `setlen n` (pseudo) -/
  | setlen (n : Word)
  /-- `setcount c` (pseudo) -/
  | setcount (c : Word)
  /-- `validate e` (pseudo) -/
  | validate (e : Word)
  /-- `at b` (pseudo) -/
  | atBase (b : Word)
  /-- `seal` (pseudo) -/
  | sealFrame
  deriving DecidableEq, Repr

/-- A 32-bit write to a register. -/
def wrReg (r : Reg) (v : Word) : HostAction := .regWrite r.offset 32 v

/-- The write that issues a command. -/
def cmdAction (i : Instr) : HostAction := wrReg .cmd (encode i)

/-- The byte writes of `fbw` (R82): `FbWrite(i, b0); FbWrite(i+1, b1); …`. -/
def fbwActions : Nat → List Byte → List HostAction
  | _, [] => []
  | i, b :: bytes => .fbWrite i b :: fbwActions (i + 1) bytes

/-- The actions of a line (R82, R83). -/
def HostLine.actions : HostLine → List HostAction
  | .wrCtrl v => [wrReg .ctrl v]
  | .wrBase v => [wrReg .base v]
  | .wrArg v => [wrReg .arg v]
  | .rd r => [.regRead r.offset 32]
  | .cmd i => [cmdAction i]
  | .cmdw v => [wrReg .cmd v]
  | .fbw i bytes => fbwActions i bytes
  | .fbr i => [.fbRead i]
  | .reset => [.reset]
  | .setlen n => [wrReg .arg n, cmdAction .setLength]
  | .setcount c => [wrReg .arg c, cmdAction .setCount]
  | .validate e => [wrReg .arg e, cmdAction .validate]
  | .atBase b => [wrReg .base b]
  | .sealFrame => [cmdAction .updateCrc]

/-- The actions of a host sequence, in order. -/
def hostScript (lines : List HostLine) : List HostAction := lines.flatMap HostLine.actions

/-- The frame count a host gives the frame after one of count `c` (R107). -/
def nextCount (c : Nat) : Nat := (c + 1) % 4096

/-- The transmit sequence (R204) for the packet bytes `body` at offset `b`: the frame is made, its length and, where
one is given, its count are set, it is sealed, and its `n` bytes are read out. -/
def transmitSequence (b : Nat) (body : List Byte) (count : Option Word) : List HostLine :=
  let n := 12 + body.length
  [.atBase (BitVec.ofNat 32 b), .cmd .init, .setlen (BitVec.ofNat 32 n), .fbw (b + 8) body]
    ++ (match count with | some c => [.setcount c] | none => [])
    ++ [.sealFrame] ++ (List.range n).map (fun k => .fbr (b + k))

/-- The expected length a receiving host gives VALIDATE (R205 step 4): the received byte count, or NO_EXPECT. -/
def expectedLength (bytes : List Byte) (giveLength : Bool) : Word :=
  if giveLength then BitVec.ofNat 32 bytes.length else Config.noExpect

/-- Steps 1 to 5 of the receive sequence (R205) for the received bytes at offset `b`. The host chooses whether IS_VRL
comes first or it goes "straight to VALIDATE" (`testFirst`), and which expected length it gives (`giveLength`). -/
def receiveSequence (b : Nat) (bytes : List Byte) (testFirst giveLength : Bool) : List HostLine :=
  [.atBase (BitVec.ofNat 32 b), .fbw b bytes]
    ++ (if testFirst then [.cmd .isVrl] else [])
    ++ [.validate (expectedLength bytes giveLength), .rd .status]

/-- Step 6 of the receive sequence (R205), from the STATUS that step 5 read: if VALID = 1, the count and the length,
each read out of RESULT before the next command (R207); else nothing. -/
def receiveFollowUp (status : Word) : List HostLine :=
  if statusValid status then [.cmd .getCount, .rd .result, .cmd .getLength, .rd .result] else []

end Sys2Proof.Machine
end

