-- ==== Sys2Proof/Machine/Run.lean ====
section
/-! DEFINITION. Runs that go on after a bus error (spec/60_exceptions.md R187: such a fault "is never final"), and the
host's sequences as runs (spec/70_reset_and_hazards.md R204, R205). -/

namespace Sys2Proof.Machine

/-- One step, going on from the state after the bus error where the access gets one. -/
def stepOn (s : State) : Host.Outcome State Fault Refusal :=
  match step s with
  | .next t => .next t
  | .fault .busError => .next s.afterBusError
  | .refused r => .refused r

/-- `n` steps, going on after bus errors. -/
def runOn : Nat → State → Host.Outcome State Fault Refusal
  | 0, s => .next s
  | n + 1, s =>
    match stepOn s with
    | .next t => runOn n t
    | .fault f => .fault f
    | .refused r => .refused r

/-- The host issues the lines' actions, before any it still has, and the block serves them. -/
def runScript (lines : List HostLine) (s : State) : Host.Outcome State Fault Refusal :=
  runOn (hostScript lines).length { s with pending := hostScript lines ++ s.pending }

/-- The host receives and checks a frame (R205): steps 1 to 5, and step 6 on the STATUS that step 5's read answered. -/
def receiveFrame (b : Nat) (bytes : List Byte) (testFirst giveLength : Bool) (s : State) :
    Host.Outcome State Fault Refusal :=
  match runScript (receiveSequence b bytes testFirst giveLength) s with
  | .next t =>
    match t.response with
    | .word status => runScript (receiveFollowUp status) t
    | .none => .next t
    | .done => .next t
    | .byte _ => .next t
    | .busError => .next t
  | .fault f => .fault f
  | .refused r => .refused r

end Sys2Proof.Machine
end

