-- ==== Sys2Proof/Safety.lean ====
section
/-! DEFINITION. The terms claims use: the invariant of the machine's state, the STATUS words that can occur, and
runs. -/

namespace Sys2Proof.Machine

/-- The STATUS words that can occur (spec/10_state.md R28, spec/60_exceptions.md R180, spec/42_control_and_validation.md
R162): an error code alone, or the result fields of one command with ERR = 0. -/
def statusWords : List Word :=
  [ 0x00000000#32,
    0x00000001#32, 0x00000002#32, 0x00000003#32, 0x00000004#32, 0x00000005#32,
    0x00000100#32,
    0x00000200#32, 0x00000600#32,
    0x00000800#32,
    0x00010000#32, 0x00020000#32, 0x00030000#32, 0x00040000#32, 0x00050000#32 ]

/-- The invariant of the state: the parameters are as R5 bounds them, FB's listing is canonical and inside FB, and
STATUS is a word that can occur. -/
structure State.Inv (s : State) : Prop where
  /-- 12 ≤ FB_CAP ≤ 2^32 − 1. -/
  cfg_wf : s.cfg.wf = true
  /-- The listing is canonical and inside FB. -/
  fb_wf : Memory.wf s.cfg s.fb
  /-- STATUS can occur; its reserved bits are 0. -/
  status_mem : s.status ∈ statusWords

/-- The states that a run from `s` reaches, going on after bus errors (R187). -/
inductive ReachableFrom (s : State) : State → Prop where
  | refl : ReachableFrom s s
  | tail {t u : State} : ReachableFrom s t → stepOn t = .next u → ReachableFrom s u

/-- A host action the block decodes (R54, R55, R187): it gets no bus error. -/
def actionDecoded (c : Config) : HostAction → Bool
  | .regRead off width => regAccessOk off width
  | .regWrite off width _ => regAccessOk off width
  | .fbRead i => decide (i < c.fbCap)
  | .fbWrite i _ => decide (i < c.fbCap)
  | .reset => true

end Sys2Proof.Machine
end

