-- ==== Sys2Proof/Certificates/Slice0/Obligations.lean ====
section
/-! DEFINITION. The statements about the model, one per obligation. Each docstring names the rule or the section of
spec/ it formalises. STATUS words are written out bit by bit (spec/10_state.md R28): ERR in 7:0, ISVRL 0x100, CRCOK
0x200, NOCRC 0x400, VALID 0x800, REASON in 19:16. `{ s with status := v, fb := t.fb }` says that every other field of
the state is as before. The fields `pending` and `response` are the model's own, for the host's side of the port (log
entries 1 and 2). -/

open Sys2Proof Sys2Proof.Machine

/-! ## Decoding and encoding (spec/30_encoding.md, part A) -/

/-- R73's twelve words, written out, decode to their commands, and the vectors DE-1 to DE-6 of 95_test_vectors.md are
illegal. -/
def Obligations.OpcodeMapWordsDecode : Prop :=
  decode 0x00000000#32 = .ok .nop ∧ decode 0x00000001#32 = .ok .init ∧ decode 0x00000002#32 = .ok .isVrl ∧
  decode 0x00000003#32 = .ok .getLength ∧ decode 0x00000004#32 = .ok .setLength ∧
  decode 0x00000005#32 = .ok .getCount ∧ decode 0x00000006#32 = .ok .setCount ∧
  decode 0x00000007#32 = .ok .computeCrc ∧ decode 0x00000008#32 = .ok .updateCrc ∧
  decode 0x00000009#32 = .ok .checkCrc ∧ decode 0x0000000A#32 = .ok .clearCrc ∧
  decode 0x0000000B#32 = .ok .validate ∧
  decode 0x0000000C#32 = .error (.reservedOpcode 0x0C#8) ∧ decode 0x000000FF#32 = .error (.reservedOpcode 0xFF#8) ∧
  decode 0x00000100#32 = .error .strictBit ∧ decode 0x0000010B#32 = .error .strictBit ∧
  decode 0x00000200#32 = .error .reservedBits ∧ decode 0x80000001#32 = .error .reservedBits

/-- Decode and encode agree: every command's word decodes to it, and no other word does ("the full match value is
zext_32(OP) under the mask 0xFFFFFFFF", R73). -/
def Obligations.DecodeAndEncodeAgree : Prop :=
  (∀ i : Instr, i.wf = true → decode (encode i) = .ok i) ∧
  ∀ (v : Word) (i : Instr), decode v = .ok i → v = encode i

/-- R72 and R74: a word is illegal exactly when S = 1, a bit of RSV is set, or OP is 0x0C or above; writing it to CMD
writes STATUS = ERR_ILLEGAL and nothing else. -/
def Obligations.IllegalWordsReportErrIllegal : Prop :=
  (∀ v : Word, (∃ e, decode v = .error e) ↔
    (v.getLsbD 8 = true ∨ v.extractLsb' 9 23 ≠ 0#23 ∨ 0x0C ≤ (v.extractLsb' 0 8).toNat)) ∧
  ∀ (v : Word) (s : State) (rest : List HostAction),
    (v.getLsbD 8 = true ∨ v.extractLsb' 9 23 ≠ 0#23 ∨ 0x0C ≤ (v.extractLsb' 0 8).toNat) →
    s.pending = .regWrite 0x0C#8 32 v :: rest →
    step s = .next { s with status := 0x00000001#32, pending := rest, response := .done }

/-! ## The host port (spec/10_state.md, spec/20_memory.md, spec/60_exceptions.md) -/

/-- A step runs the decoded command (30_encoding.md section Part A): when the host's next action writes a word to CMD
that decodes to `i`, the step is `exec i` on the state from which that action has been taken and answered. The
response and the list of further actions are the model's own fields (log entries 1 and 2). -/
def Obligations.CmdWriteRunsTheDecodedCommand : Prop :=
  ∀ (s : State) (v : Word) (i : Instr) (rest : List HostAction),
    s.pending = .regWrite 0x0C#8 32 v :: rest → decode v = .ok i →
    step s = exec i { s with pending := rest, response := .done }

/-- 70_reset_and_hazards.md section 1: with no host action left the block waits, and a step changes nothing (the model's
choice of what an idle step is: log entry 1). -/
def Obligations.IdleStepChangesNothing : Prop :=
  ∀ s : State, s.pending = [] → step s = .next s

/-- 20_memory.md section 5: the host's actions are served one at a time in issue order. A step serves exactly the first
one, on the state from which it has been taken; one that the block does not decode gets the bus error, and the run goes
on with the next; the further actions stay in the list in either case. The list is the model's own (log entry 1), and so
is that a Reset action keeps it (log entry 13). -/
def Obligations.ActionsAreServedInIssueOrder : Prop :=
  ∀ (s : State) (a : HostAction) (rest : List HostAction), s.pending = a :: rest →
    step s = serve a { s with pending := rest } ∧
    (actionDecoded s.cfg a = true → ∃ t, step s = .next t ∧ stepOn s = .next t ∧ t.pending = rest) ∧
    (actionDecoded s.cfg a = false →
      step s = .fault .busError ∧ stepOn s = .next { s with pending := rest, response := .busError })

/-- 10_state.md section 2: a 32-bit read at an aligned offset answers the register's value (CTRL[31:1], CMD and the
reserved offsets read 0) and changes nothing of the block. -/
def Obligations.RegReadAnswersTheRegister : Prop :=
  ∀ (s : State) (off : BitVec 8) (rest : List HostAction), off.toNat % 4 = 0 →
    s.pending = .regRead off 32 :: rest →
    let v : Word :=
      if off = 0x00#8 then (if s.ro then 0x00000001#32 else 0x00000000#32)
      else if off = 0x04#8 then s.base
      else if off = 0x08#8 then s.arg
      else if off = 0x10#8 then s.status
      else if off = 0x14#8 then s.result
      else 0x00000000#32
    step s = .next { s with pending := rest, response := .word v }

/-- R25: BASE stores every bit of any value written, aligned or not, in range or not, whatever the host does next, and
reads back unchanged; a command checks its range when it uses it: past the end of FB, every command but NOP ends in an
error. -/
def Obligations.BaseStoresAnyValue : Prop :=
  (∀ (s : State) (v : Word) (rest : List HostAction), s.pending = .regWrite 0x04#8 32 v :: rest →
    ∃ t, step s = .next t ∧ t = { s with base := v, pending := rest, response := .done } ∧
      ∀ more, rest = .regRead 0x04#8 32 :: more → step t = .next { t with pending := more, response := .word v }) ∧
  ∀ (i : Instr) (s : State), s.cfg.fbCap < s.base.toNat → i ≠ .nop →
    ∃ t, exec i s = .next t ∧ statusErr t.status ≠ 0x00#8

/-- R26: ARG stores every bit, whatever the host does next, and reads back unchanged; no command but
SET_LENGTH, SET_COUNT and VALIDATE reads it, and no command writes it. -/
def Obligations.ArgIsReadByThreeCommandsAndWrittenByNone : Prop :=
  (∀ (s : State) (v : Word) (rest : List HostAction), s.pending = .regWrite 0x08#8 32 v :: rest →
    ∃ t, step s = .next t ∧ t = { s with arg := v, pending := rest, response := .done } ∧
      ∀ more, rest = .regRead 0x08#8 32 :: more → step t = .next { t with pending := more, response := .word v }) ∧
  (∀ (i : Instr) (s : State) (x : Word), i ≠ .setLength → i ≠ .setCount → i ≠ .validate →
    ∃ t, exec i s = .next t ∧ exec i { s with arg := x } = .next { t with arg := x }) ∧
  ∀ (v : Word) (s : State), ∃ t, issueCommand v s = .next t ∧ t.arg = s.arg

/-- R24: CTRL is 0 after reset; a write to it, whatever the host does next, leaves RO = bit 0 and nothing else, and reads
back so; with RO = 1 each of the five mutating commands fails with ERR_READ_ONLY whatever else holds, and the host's writes to FB go on. -/
def Obligations.CtrlHoldsTheReadOnlyFlag : Prop :=
  readRegAt State.reset 0x00#8 = 0x00000000#32 ∧
  (∀ (s : State) (v : Word) (rest : List HostAction), s.pending = .regWrite 0x00#8 32 v :: rest →
    ∃ t, step s = .next t ∧ t = { s with ro := v.getLsbD 0, pending := rest, response := .done } ∧
      ∀ more, rest = .regRead 0x00#8 32 :: more →
        step t = .next { t with pending := more, response := .word (v &&& 0x00000001#32) }) ∧
  (∀ (s : State) (i : Instr), s.ro = true →
    i = .init ∨ i = .setLength ∨ i = .setCount ∨ i = .updateCrc ∨ i = .clearCrc →
    exec i s = .next { s with status := 0x00000002#32 }) ∧
  ∀ (s : State) (i : Nat) (b : Byte), i < s.cfg.fbCap →
    ∃ t, serve (.fbWrite i b) s = .next t ∧ t.fbByte i = b

/-- R55: a register access that is misaligned or not 32 bits wide gets a bus error and changes no state; a reserved
offset reads 0 and ignores writes. -/
def Obligations.RegisterAccessWidthAndAlignment : Prop :=
  (∀ (s : State) (off : BitVec 8) (width : Nat) (rest : List HostAction),
    off.toNat % 4 ≠ 0 ∨ width ≠ 32 → s.pending = .regRead off width :: rest →
    step s = .fault .busError ∧ stepOn s = .next { s with pending := rest, response := .busError }) ∧
  (∀ (s : State) (off : BitVec 8) (width : Nat) (v : Word) (rest : List HostAction),
    off.toNat % 4 ≠ 0 ∨ width ≠ 32 → s.pending = .regWrite off width v :: rest →
    step s = .fault .busError ∧ stepOn s = .next { s with pending := rest, response := .busError }) ∧
  (∀ (s : State) (off : BitVec 8) (rest : List HostAction), off.toNat % 4 = 0 → 0x18 ≤ off.toNat →
    s.pending = .regRead off 32 :: rest →
    step s = .next { s with pending := rest, response := .word 0x00000000#32 }) ∧
  ∀ (s : State) (off : BitVec 8) (v : Word) (rest : List HostAction), off.toNat % 4 = 0 → 0x18 ≤ off.toNat →
    s.pending = .regWrite off 32 v :: rest →
    step s = .next { s with pending := rest, response := .done }

/-- R54: the host reads and writes single bytes of FB below FB_CAP, whatever CTRL.RO says, and an access at FB_CAP or
above gets a bus error that changes no state. -/
def Obligations.FbIsReadAndWrittenByteByByte : Prop :=
  (∀ (s : State) (i : Nat) (rest : List HostAction), i < s.cfg.fbCap → s.pending = .fbRead i :: rest →
    step s = .next { s with pending := rest, response := .byte (s.fbByte i) }) ∧
  (∀ (s : State) (i : Nat) (b : Byte) (rest : List HostAction), i < s.cfg.fbCap →
    s.pending = .fbWrite i b :: rest →
    ∃ t, step s = .next t ∧ t = { s with fb := t.fb, pending := rest, response := .done } ∧
      t.fbByte i = b ∧ ∀ a, a ≠ i → t.fbByte a = s.fbByte a) ∧
  (∀ (s : State) (i : Nat) (rest : List HostAction), s.cfg.fbCap ≤ i → s.pending = .fbRead i :: rest →
    step s = .fault .busError ∧ stepOn s = .next { s with pending := rest, response := .busError }) ∧
  ∀ (s : State) (i : Nat) (b : Byte) (rest : List HostAction), s.cfg.fbCap ≤ i →
    s.pending = .fbWrite i b :: rest →
    step s = .fault .busError ∧ stepOn s = .next { s with pending := rest, response := .busError }

/-- R187: a step faults exactly where the host's next access is one the block does not decode; the fault changes no
block state and is not final. No step is refused. -/
def Obligations.BusErrorsAreTheOnlyFaults : Prop :=
  (∀ s : State, step s = .fault .busError ↔ ∃ rest,
    (∃ i, s.cfg.fbCap ≤ i ∧ s.pending = .fbRead i :: rest) ∨
    (∃ i b, s.cfg.fbCap ≤ i ∧ s.pending = .fbWrite i b :: rest) ∨
    (∃ off width, (off.toNat % 4 ≠ 0 ∨ width ≠ 32) ∧ s.pending = .regRead off width :: rest) ∨
    (∃ off width v, (off.toNat % 4 ≠ 0 ∨ width ≠ 32) ∧ s.pending = .regWrite off width v :: rest)) ∧
  (∀ s : State, (∃ t, step s = .next t) ∨ step s = .fault .busError) ∧
  ∀ s : State, step s = .fault .busError →
    stepOn s = .next { s with pending := s.pending.tail, response := .busError }

/-- 20_memory.md section 2: four host writes of bytes make the big-endian word a command reads, and a word a command
writes is read back by the host most significant byte first. -/
def Obligations.WordsInFbAreBigEndian : Prop :=
  (∀ (s : State) (a : Nat) (b0 b1 b2 b3 : Byte) (rest : List HostAction), a + 3 < s.cfg.fbCap →
    s.pending = .fbWrite a b0 :: .fbWrite (a + 1) b1 :: .fbWrite (a + 2) b2 :: .fbWrite (a + 3) b3 :: rest →
    ∃ t, runOn 4 s = .next t ∧ t.pending = rest ∧ t.fbWord a = b0 ++ b1 ++ b2 ++ b3) ∧
  ∀ (s : State) (a : Nat) (v : Word),
    (s.setFbWord a v).fbByte a = v.extractLsb' 24 8 ∧ (s.setFbWord a v).fbByte (a + 1) = v.extractLsb' 16 8 ∧
    (s.setFbWord a v).fbByte (a + 2) = v.extractLsb' 8 8 ∧ (s.setFbWord a v).fbByte (a + 3) = v.extractLsb' 0 8 ∧
    (s.setFbWord a v).fbWord a = v ∧
    ∀ x, x < a ∨ a + 4 ≤ x → (s.setFbWord a v).fbByte x = s.fbByte x

/-- 20_memory.md section 5: a read of STATUS and a read of RESULT issued right after a CMD write see that command's
report. -/
def Obligations.StatusReadSeesTheCommandBeforeIt : Prop :=
  ∀ (s : State) (v : Word) (rest : List HostAction),
    s.pending = .regWrite 0x0C#8 32 v :: .regRead 0x10#8 32 :: .regRead 0x14#8 32 :: rest →
    ∃ t u w, step s = .next t ∧ step t = .next u ∧ step u = .next w ∧
      issueCommand v { s with pending := t.pending, response := .done } = .next t ∧
      u.response = .word t.status ∧ w.response = .word t.result ∧ w.pending = rest ∧
      w = { t with pending := rest, response := .word t.result }

/-! ## Reset (spec/70_reset_and_hazards.md section 1) -/

/-- After power-up and reset every register is 0 and FB holds fb_init (10_state.md section 3). That the host has then
issued nothing is the model's choice (log entries 1 and 6). -/
def Obligations.ResetStateHoldsTheResetValues : Prop :=
  State.reset.ro = false ∧ State.reset.base = 0x00000000#32 ∧ State.reset.arg = 0x00000000#32 ∧
  State.reset.status = 0x00000000#32 ∧ State.reset.result = 0x00000000#32 ∧
  (∀ off : BitVec 8, readRegAt State.reset off = 0x00000000#32) ∧
  ∀ i, i < State.reset.cfg.fbCap → State.reset.fbByte i = Config.fbInitByte i

/-- R200: the Reset action sets CTRL, BASE, ARG, STATUS and RESULT to 0 and leaves every byte of FB as it was; after
power-up FB holds fb_init. -/
def Obligations.ResetActionClearsRegistersAndKeepsFb : Prop :=
  (∀ (s : State) (rest : List HostAction), s.pending = .reset :: rest →
    ∃ t, step s = .next t ∧ t.ro = false ∧ readRegAt t 0x00#8 = 0x00000000#32 ∧ t.base = 0x00000000#32 ∧
      t.arg = 0x00000000#32 ∧ t.status = 0x00000000#32 ∧ t.result = 0x00000000#32 ∧
      (∀ i, t.fbByte i = s.fbByte i) ∧ t.cfg = s.cfg) ∧
  ∀ i, i < State.reset.cfg.fbCap → State.reset.fbByte i = Config.fbInitByte i

/-! ## The frame's wire format (spec/30_encoding.md, part B) -/

/-- 30_encoding.md section Part B (R77): the count is header word 1's bits 31:20 and the stored length four times its
bits 19:0, a multiple of 4 of at most 0x3FFFFC; the trailer and the body stand at BASE + L − 4 and BASE + 8. -/
def Obligations.HeaderDecodesToCountAndLength : Prop :=
  (∀ w1 : Word, (headerCount w1).toNat = w1.toNat / 2 ^ 20 ∧ headerLength w1 = w1.toNat % 2 ^ 20 * 4 ∧
    headerLength w1 ≤ 0x3FFFFC) ∧
  ∀ s : State, s.storedLen = headerLength (s.fbWord (s.base.toNat + 4)) ∧
    (12 ≤ s.storedLen → s.trailer = s.fbWord (s.base.toNat + s.storedLen - 4) ∧
      s.bodyBytes.length = s.storedLen - 12 ∧
      ∀ (k : Nat) (h : k < s.bodyBytes.length), s.bodyBytes[k] = s.fbByte (s.base.toNat + 8 + k))

/-- 30_encoding.md section Part B (R78): `{c[11:0], (n / 4)[19:0]}` is `(c << 20) | (n / 4)`, and the two fields are
disjoint: each reads back as written. -/
def Obligations.HeaderEncodesCountAndLength : Prop :=
  ∀ c n : Nat, c ≤ 4095 → n % 4 = 0 → n ≤ 0x3FFFFC →
    packHeader (BitVec.ofNat 12 c) (BitVec.ofNat 20 (n / 4)) =
      (BitVec.ofNat 32 c <<< 20) ||| BitVec.ofNat 32 (n / 4) ∧
    (headerCount (packHeader (BitVec.ofNat 12 c) (BitVec.ofNat 20 (n / 4)))).toNat = c ∧
    headerLength (packHeader (BitVec.ofNat 12 c) (BitVec.ofNat 20 (n / 4))) = n

/-! ## The commands, one statement each: its word, its effect with what it leaves alone, and its errors in order -/

/-- R160: NOP sets STATUS to 0 and nothing else, in every state; no other word of OP 0x00 is a NOP. -/
def Obligations.NopClearsStatusOnly : Prop :=
  decode 0x00000000#32 = .ok .nop ∧
  (∀ v : Word, v.extractLsb' 0 8 = 0x00#8 → v ≠ 0x00000000#32 → ∃ e, decode v = .error e) ∧
  ∀ s : State, exec .nop s = .next { s with status := 0x00000000#32 }

/-- R101: INIT writes the minimal frame at BASE and leaves every other byte alone; ERR_READ_ONLY, then ERR_BOUNDS. -/
def Obligations.InitWritesTheMinimalFrame : Prop :=
  decode 0x00000001#32 = .ok .init ∧
  (∀ s : State, s.ro = false → s.base.toNat + 12 ≤ s.cfg.fbCap →
    ∃ t, exec .init s = .next t ∧ t = { s with status := 0x00000000#32, fb := t.fb } ∧
      t.fbWord s.base.toNat = s.cfg.faw ∧ t.fbWord (s.base.toNat + 4) = 0x00000003#32 ∧
      t.fbWord (s.base.toNat + 8) = s.cfg.nocrc ∧
      ∀ a, a < s.base.toNat ∨ s.base.toNat + 12 ≤ a → t.fbByte a = s.fbByte a) ∧
  (∀ s : State, s.ro = true → exec .init s = .next { s with status := 0x00000002#32 }) ∧
  ∀ s : State, s.ro = false → s.cfg.fbCap < s.base.toNat + 12 →
    exec .init s = .next { s with status := 0x00000003#32 }

/-- R102: IS_VRL sets ISVRL exactly when the word at BASE is FAW; only those four bytes need to fit. -/
def Obligations.IsVrlTestsTheAlignmentWord : Prop :=
  decode 0x00000002#32 = .ok .isVrl ∧
  (∀ s : State, s.base.toNat + 4 ≤ s.cfg.fbCap →
    exec .isVrl s =
      .next { s with status := if s.fbWord s.base.toNat = s.cfg.faw then 0x00000100#32 else 0x00000000#32 }) ∧
  ∀ s : State, s.cfg.fbCap < s.base.toNat + 4 → exec .isVrl s = .next { s with status := 0x00000003#32 }

/-- R103: GET_LENGTH answers header bits 19:0 times 4 in RESULT, with no other check than that the header fits. -/
def Obligations.GetLengthAnswersTheStoredLength : Prop :=
  decode 0x00000003#32 = .ok .getLength ∧
  (∀ s : State, s.base.toNat + 8 ≤ s.cfg.fbCap →
    ∃ t, exec .getLength s = .next t ∧ t = { s with status := 0x00000000#32, result := t.result } ∧
      t.result.toNat = (s.fbWord (s.base.toNat + 4)).toNat % 2 ^ 20 * 4 ∧ t.result.toNat % 4 = 0 ∧
      t.result.toNat ≤ 0x3FFFFC) ∧
  ∀ s : State, s.cfg.fbCap < s.base.toNat + 8 → exec .getLength s = .next { s with status := 0x00000003#32 }

/-- R104: SET_LENGTH writes ARG / 4 into the length bits, keeps the count bits, writes NOCRC into the new trailer and
leaves every other byte alone; ERR_READ_ONLY, ERR_ARG, ERR_BOUNDS (maximum), ERR_BOUNDS (capacity), in that order. -/
def Obligations.SetLengthWritesLengthAndClearsTrailer : Prop :=
  decode 0x00000004#32 = .ok .setLength ∧
  (∀ s : State, s.ro = false → s.arg.toNat % 4 = 0 → 12 ≤ s.arg.toNat → s.arg.toNat ≤ 0x3FFFFC →
    s.base.toNat + s.arg.toNat ≤ s.cfg.fbCap →
    ∃ t, exec .setLength s = .next t ∧ t = { s with status := 0x00000000#32, fb := t.fb } ∧
      headerCount (t.fbWord (s.base.toNat + 4)) = headerCount (s.fbWord (s.base.toNat + 4)) ∧
      headerLength (t.fbWord (s.base.toNat + 4)) = s.arg.toNat ∧
      t.fbWord (s.base.toNat + s.arg.toNat - 4) = s.cfg.nocrc ∧
      ∀ a, a < s.base.toNat + 4 ∨ s.base.toNat + 8 ≤ a →
        a < s.base.toNat + s.arg.toNat - 4 ∨ s.base.toNat + s.arg.toNat ≤ a → t.fbByte a = s.fbByte a) ∧
  (∀ s : State, s.ro = true → exec .setLength s = .next { s with status := 0x00000002#32 }) ∧
  (∀ s : State, s.ro = false → s.arg.toNat % 4 ≠ 0 ∨ s.arg.toNat < 12 →
    exec .setLength s = .next { s with status := 0x00000004#32 }) ∧
  (∀ s : State, s.ro = false → s.arg.toNat % 4 = 0 → 0x3FFFFC < s.arg.toNat →
    exec .setLength s = .next { s with status := 0x00000003#32 }) ∧
  ∀ s : State, s.ro = false → s.arg.toNat % 4 = 0 → 12 ≤ s.arg.toNat → s.arg.toNat ≤ 0x3FFFFC →
    s.cfg.fbCap < s.base.toNat + s.arg.toNat → exec .setLength s = .next { s with status := 0x00000003#32 }

/-- R105: GET_COUNT answers header bits 31:20 in RESULT. -/
def Obligations.GetCountAnswersTheFrameCount : Prop :=
  decode 0x00000005#32 = .ok .getCount ∧
  (∀ s : State, s.base.toNat + 8 ≤ s.cfg.fbCap →
    ∃ t, exec .getCount s = .next t ∧ t = { s with status := 0x00000000#32, result := t.result } ∧
      t.result.toNat = (s.fbWord (s.base.toNat + 4)).toNat / 2 ^ 20 ∧ t.result.toNat ≤ 4095) ∧
  ∀ s : State, s.cfg.fbCap < s.base.toNat + 8 → exec .getCount s = .next { s with status := 0x00000003#32 }

/-- R106: SET_COUNT writes ARG into the count bits, keeps the length bits, writes NOCRC into the trailer and leaves
every other byte alone; ERR_READ_ONLY, ERR_ARG, ERR_BOUNDS, ERR_MALFORMED, in that order. -/
def Obligations.SetCountWritesCountAndClearsTrailer : Prop :=
  decode 0x00000006#32 = .ok .setCount ∧
  (∀ s : State, s.ro = false → s.arg.toNat ≤ 4095 → s.base.toNat + 8 ≤ s.cfg.fbCap → 12 ≤ s.storedLen →
    s.base.toNat + s.storedLen ≤ s.cfg.fbCap →
    ∃ t, exec .setCount s = .next t ∧ t = { s with status := 0x00000000#32, fb := t.fb } ∧
      (headerCount (t.fbWord (s.base.toNat + 4))).toNat = s.arg.toNat ∧
      headerLenWords (t.fbWord (s.base.toNat + 4)) = headerLenWords (s.fbWord (s.base.toNat + 4)) ∧
      t.fbWord (s.base.toNat + s.storedLen - 4) = s.cfg.nocrc ∧
      ∀ a, a < s.base.toNat + 4 ∨ s.base.toNat + 8 ≤ a →
        a < s.base.toNat + s.storedLen - 4 ∨ s.base.toNat + s.storedLen ≤ a → t.fbByte a = s.fbByte a) ∧
  (∀ s : State, s.ro = true → exec .setCount s = .next { s with status := 0x00000002#32 }) ∧
  (∀ s : State, s.ro = false → 4095 < s.arg.toNat → exec .setCount s = .next { s with status := 0x00000004#32 }) ∧
  (∀ s : State, s.ro = false → s.arg.toNat ≤ 4095 → s.cfg.fbCap < s.base.toNat + 8 →
    exec .setCount s = .next { s with status := 0x00000003#32 }) ∧
  ∀ s : State, s.ro = false → s.arg.toNat ≤ 4095 → s.base.toNat + 8 ≤ s.cfg.fbCap →
    s.storedLen < 12 ∨ s.cfg.fbCap < s.base.toNat + s.storedLen →
    exec .setCount s = .next { s with status := 0x00000005#32 }

/-- R140: COMPUTE_CRC answers the CRC of the body in RESULT and writes no byte; ERR_BOUNDS, then ERR_MALFORMED. -/
def Obligations.ComputeCrcAnswersTheFrameCrc : Prop :=
  decode 0x00000007#32 = .ok .computeCrc ∧
  (∀ s : State, s.base.toNat + 8 ≤ s.cfg.fbCap → 12 ≤ s.storedLen → s.base.toNat + s.storedLen ≤ s.cfg.fbCap →
    let crc := crc32 (s.fbBytes (s.base.toNat + 8) (s.storedLen - 12))
    exec .computeCrc s = .next { s with status := 0x00000000#32, result := crc }) ∧
  (∀ s : State, s.cfg.fbCap < s.base.toNat + 8 → exec .computeCrc s = .next { s with status := 0x00000003#32 }) ∧
  ∀ s : State, s.base.toNat + 8 ≤ s.cfg.fbCap → s.storedLen < 12 ∨ s.cfg.fbCap < s.base.toNat + s.storedLen →
    exec .computeCrc s = .next { s with status := 0x00000005#32 }

/-- R141: UPDATE_CRC writes the CRC of the body into the trailer and RESULT and leaves every other byte alone;
ERR_READ_ONLY, ERR_BOUNDS, ERR_MALFORMED, in that order. -/
def Obligations.UpdateCrcSealsTheFrame : Prop :=
  decode 0x00000008#32 = .ok .updateCrc ∧
  (∀ s : State, s.ro = false → s.base.toNat + 8 ≤ s.cfg.fbCap → 12 ≤ s.storedLen →
    s.base.toNat + s.storedLen ≤ s.cfg.fbCap →
    let crc := crc32 (s.fbBytes (s.base.toNat + 8) (s.storedLen - 12))
    ∃ t, exec .updateCrc s = .next t ∧ t = { s with status := 0x00000000#32, fb := t.fb, result := crc } ∧
      t.fbWord (s.base.toNat + s.storedLen - 4) = crc ∧
      ∀ a, a < s.base.toNat + s.storedLen - 4 ∨ s.base.toNat + s.storedLen ≤ a → t.fbByte a = s.fbByte a) ∧
  (∀ s : State, s.ro = true → exec .updateCrc s = .next { s with status := 0x00000002#32 }) ∧
  (∀ s : State, s.ro = false → s.cfg.fbCap < s.base.toNat + 8 →
    exec .updateCrc s = .next { s with status := 0x00000003#32 }) ∧
  ∀ s : State, s.ro = false → s.base.toNat + 8 ≤ s.cfg.fbCap →
    s.storedLen < 12 ∨ s.cfg.fbCap < s.base.toNat + s.storedLen →
    exec .updateCrc s = .next { s with status := 0x00000005#32 }

/-- R142: CHECK_CRC sets NOCRC when the trailer is the sentinel and CRCOK when it is the sentinel or the CRC of the
body, and answers that CRC in RESULT; ERR_BOUNDS, then ERR_MALFORMED. -/
def Obligations.CheckCrcTestsTheTrailer : Prop :=
  decode 0x00000009#32 = .ok .checkCrc ∧
  (∀ s : State, s.base.toNat + 8 ≤ s.cfg.fbCap → 12 ≤ s.storedLen → s.base.toNat + s.storedLen ≤ s.cfg.fbCap →
    let crc := crc32 (s.fbBytes (s.base.toNat + 8) (s.storedLen - 12))
    let trailer := s.fbWord (s.base.toNat + s.storedLen - 4)
    let v : Word :=
      if trailer = s.cfg.nocrc then 0x00000600#32 else if trailer = crc then 0x00000200#32 else 0x00000000#32
    exec .checkCrc s = .next { s with status := v, result := crc }) ∧
  (∀ s : State, s.cfg.fbCap < s.base.toNat + 8 → exec .checkCrc s = .next { s with status := 0x00000003#32 }) ∧
  ∀ s : State, s.base.toNat + 8 ≤ s.cfg.fbCap → s.storedLen < 12 ∨ s.cfg.fbCap < s.base.toNat + s.storedLen →
    exec .checkCrc s = .next { s with status := 0x00000005#32 }

/-- R143: CLEAR_CRC writes the sentinel into the trailer and leaves every other byte alone; ERR_READ_ONLY, ERR_BOUNDS,
ERR_MALFORMED, in that order. -/
def Obligations.ClearCrcWritesTheSentinel : Prop :=
  decode 0x0000000A#32 = .ok .clearCrc ∧
  (∀ s : State, s.ro = false → s.base.toNat + 8 ≤ s.cfg.fbCap → 12 ≤ s.storedLen →
    s.base.toNat + s.storedLen ≤ s.cfg.fbCap →
    ∃ t, exec .clearCrc s = .next t ∧ t = { s with status := 0x00000000#32, fb := t.fb } ∧
      t.fbWord (s.base.toNat + s.storedLen - 4) = s.cfg.nocrc ∧
      ∀ a, a < s.base.toNat + s.storedLen - 4 ∨ s.base.toNat + s.storedLen ≤ a → t.fbByte a = s.fbByte a) ∧
  (∀ s : State, s.ro = true → exec .clearCrc s = .next { s with status := 0x00000002#32 }) ∧
  (∀ s : State, s.ro = false → s.cfg.fbCap < s.base.toNat + 8 →
    exec .clearCrc s = .next { s with status := 0x00000003#32 }) ∧
  ∀ s : State, s.ro = false → s.base.toNat + 8 ≤ s.cfg.fbCap →
    s.storedLen < 12 ∨ s.cfg.fbCap < s.base.toNat + s.storedLen →
    exec .clearCrc s = .next { s with status := 0x00000005#32 }

/-- R161: VALIDATE reports the first failing check in REASON, or VALID = 1; only a header that does not fit is an
error. -/
def Obligations.ValidateReportsTheFirstFailingCheck : Prop :=
  decode 0x0000000B#32 = .ok .validate ∧
  (∀ s : State, s.base.toNat + 8 ≤ s.cfg.fbCap →
    let crc := crc32 (s.fbBytes (s.base.toNat + 8) (s.storedLen - 12))
    let trailer := s.fbWord (s.base.toNat + s.storedLen - 4)
    let v : Word :=
      if s.fbWord s.base.toNat ≠ s.cfg.faw then 0x00010000#32
      else if s.storedLen < 12 then 0x00020000#32
      else if s.cfg.fbCap < s.base.toNat + s.storedLen then 0x00030000#32
      else if s.arg ≠ 0xFFFFFFFF#32 ∧ s.storedLen ≠ s.arg.toNat then 0x00040000#32
      else if trailer ≠ s.cfg.nocrc ∧ trailer ≠ crc then 0x00050000#32
      else 0x00000800#32
    exec .validate s = .next { s with status := v }) ∧
  ∀ s : State, s.cfg.fbCap < s.base.toNat + 8 → exec .validate s = .next { s with status := 0x00000003#32 }

/-! ## Rules about every command (spec/60_exceptions.md, spec/10_state.md) -/

/-- R182: every command word ends in a next state, and one that raises an error writes `STATUS <- zext_32(code)` and
changes nothing else. -/
def Obligations.ErrorsArePreciseAndAllOrNothing : Prop :=
  ∀ (v : Word) (s : State), ∃ t, issueCommand v s = .next t ∧
    (statusErr t.status ≠ 0x00#8 → t = { s with status := (statusErr t.status).setWidth 32 })

/-- R181: ERR_BOUNDS is raised in exactly these cases (a higher-priority check of R183 passing where the command has
one). -/
def Obligations.ErrBoundsIsRaisedExactly : Prop :=
  ∀ s : State, ∃ nop init isVrl getLength setLength getCount setCount compute update check clear validate : State,
    (exec .nop s = .next nop ∧ statusErr nop.status ≠ 0x03#8) ∧
    (exec .init s = .next init ∧
      (statusErr init.status = 0x03#8 ↔ s.ro = false ∧ s.cfg.fbCap < s.base.toNat + 12)) ∧
    (exec .isVrl s = .next isVrl ∧ (statusErr isVrl.status = 0x03#8 ↔ s.cfg.fbCap < s.base.toNat + 4)) ∧
    (exec .getLength s = .next getLength ∧
      (statusErr getLength.status = 0x03#8 ↔ s.cfg.fbCap < s.base.toNat + 8)) ∧
    (exec .setLength s = .next setLength ∧
      (statusErr setLength.status = 0x03#8 ↔
        s.ro = false ∧ s.arg.toNat % 4 = 0 ∧ 12 ≤ s.arg.toNat ∧
          (0x3FFFFC < s.arg.toNat ∨ s.cfg.fbCap < s.base.toNat + s.arg.toNat))) ∧
    (exec .getCount s = .next getCount ∧
      (statusErr getCount.status = 0x03#8 ↔ s.cfg.fbCap < s.base.toNat + 8)) ∧
    (exec .setCount s = .next setCount ∧
      (statusErr setCount.status = 0x03#8 ↔
        s.ro = false ∧ s.arg.toNat ≤ 4095 ∧ s.cfg.fbCap < s.base.toNat + 8)) ∧
    (exec .computeCrc s = .next compute ∧ (statusErr compute.status = 0x03#8 ↔ s.cfg.fbCap < s.base.toNat + 8)) ∧
    (exec .updateCrc s = .next update ∧
      (statusErr update.status = 0x03#8 ↔ s.ro = false ∧ s.cfg.fbCap < s.base.toNat + 8)) ∧
    (exec .checkCrc s = .next check ∧ (statusErr check.status = 0x03#8 ↔ s.cfg.fbCap < s.base.toNat + 8)) ∧
    (exec .clearCrc s = .next clear ∧
      (statusErr clear.status = 0x03#8 ↔ s.ro = false ∧ s.cfg.fbCap < s.base.toNat + 8)) ∧
    (exec .validate s = .next validate ∧
      (statusErr validate.status = 0x03#8 ↔ s.cfg.fbCap < s.base.toNat + 8))

/-- 60_exceptions.md section 1 (the table of R180): which command can end in which code. A command ends in OK,
ERR_READ_ONLY, ERR_BOUNDS, ERR_ARG or ERR_MALFORMED; each code comes from the commands the table names. -/
def Obligations.ErrorCodesComeFromTheirCommands : Prop :=
  ∀ (i : Instr) (s : State), ∃ t, exec i s = .next t ∧
    (statusErr t.status = 0x00#8 ∨ statusErr t.status = 0x02#8 ∨ statusErr t.status = 0x03#8 ∨
      statusErr t.status = 0x04#8 ∨ statusErr t.status = 0x05#8) ∧
    (statusErr t.status = 0x02#8 ↔
      s.ro = true ∧ (i = .init ∨ i = .setLength ∨ i = .setCount ∨ i = .updateCrc ∨ i = .clearCrc)) ∧
    (statusErr t.status = 0x03#8 → i ≠ .nop) ∧
    (statusErr t.status = 0x04#8 ↔ s.ro = false ∧
      (i = .setLength ∧ (s.arg.toNat % 4 ≠ 0 ∨ s.arg.toNat < 12) ∨ i = .setCount ∧ 4095 < s.arg.toNat)) ∧
    (statusErr t.status = 0x05#8 →
      (i = .setCount ∨ i = .computeCrc ∨ i = .updateCrc ∨ i = .checkCrc ∨ i = .clearCrc) ∧
      (s.storedLen < 12 ∨ s.cfg.fbCap < s.base.toNat + s.storedLen))

/-- R28: STATUS is 0 after reset; a host write to it is ignored; every command rewrites all of STATUS, whatever it held,
and no command reads it; each field comes from its command only, and the reserved bits are 0. -/
def Obligations.StatusIsRewrittenByEveryCommand : Prop :=
  State.reset.status = 0x00000000#32 ∧
  (∀ (s : State) (v : Word) (rest : List HostAction), s.pending = .regWrite 0x10#8 32 v :: rest →
    step s = .next { s with pending := rest, response := .done }) ∧
  (∀ (v x : Word) (s : State), issueCommand v { s with status := x } = issueCommand v s) ∧
  ∀ (v : Word) (s : State), ∃ t, issueCommand v s = .next t ∧
    (t.status.getLsbD 8 = true ↔ v = 0x00000002#32 ∧ statusErr t.status = 0x00#8 ∧
      s.fbWord s.base.toNat = s.cfg.faw) ∧
    (t.status.getLsbD 9 = true ↔ v = 0x00000009#32 ∧ statusErr t.status = 0x00#8 ∧
      (s.trailer = s.cfg.nocrc ∨ s.trailer = s.frameCrc)) ∧
    (t.status.getLsbD 10 = true ↔ v = 0x00000009#32 ∧ statusErr t.status = 0x00#8 ∧ s.trailer = s.cfg.nocrc) ∧
    (t.status.getLsbD 11 = true ↔
      v = 0x0000000B#32 ∧ statusErr t.status = 0x00#8 ∧ statusReason t.status = 0#4) ∧
    (statusReason t.status ≠ 0#4 → v = 0x0000000B#32 ∧ statusErr t.status = 0x00#8) ∧
    (statusReason t.status).toNat ≤ 5 ∧ (statusErr t.status).toNat ≤ 5 ∧
    t.status.extractLsb' 12 4 = 0#4 ∧ t.status.extractLsb' 20 12 = 0#12

/-- R29: a host write to RESULT is ignored; the five value-producing commands write it on success, and no other command
and no command that ends in an error changes it. -/
def Obligations.ResultIsWrittenByFiveCommandsOnSuccess : Prop :=
  (∀ (s : State) (v : Word) (rest : List HostAction), s.pending = .regWrite 0x14#8 32 v :: rest →
    step s = .next { s with pending := rest, response := .done }) ∧
  (∀ (v : Word) (s : State), ∃ t, issueCommand v s = .next t ∧
    (statusErr t.status ≠ 0x00#8 → t.result = s.result)) ∧
  (∀ (i : Instr) (s : State), ∃ t, exec i s = .next t ∧
    (statusErr t.status = 0x00#8 →
      t.result =
        if i = .getLength then BitVec.ofNat 32 s.storedLen
        else if i = .getCount then (headerCount (s.fbWord (s.base.toNat + 4))).setWidth 32
        else if i = .computeCrc ∨ i = .updateCrc ∨ i = .checkCrc then s.frameCrc
        else s.result))

/-- 30_encoding.md section Part C (R84): operand use. No command writes BASE, ARG or CTRL (or the model's own fields);
a command that is not mutating writes no byte of FB and does not read CTRL.RO; NOP reads neither BASE nor FB. -/
def Obligations.CommandsUseOnlyTheirOperands : Prop :=
  (∀ (v : Word) (s : State), ∃ t, issueCommand v s = .next t ∧
    t = { s with status := t.status, result := t.result, fb := t.fb }) ∧
  (∀ (i : Instr) (s : State) (b : Bool),
    i ≠ .init → i ≠ .setLength → i ≠ .setCount → i ≠ .updateCrc → i ≠ .clearCrc →
    ∃ t, exec i s = .next t ∧ t.fb = s.fb ∧ exec i { s with ro := b } = .next { t with ro := b }) ∧
  ∀ (s : State) (x : Word) (m : List Host.Cell), ∃ t, exec .nop s = .next t ∧
    exec .nop { s with base := x, fb := m } = .next { t with base := x, fb := m }

/-- 20_memory.md section 3 and 10_state.md section 3: no command changes a byte below BASE or a byte at FB_CAP or
above. -/
def Obligations.CommandsWriteOnlyInsideFbFromBase : Prop :=
  ∀ (v : Word) (s : State), ∃ t, issueCommand v s = .next t ∧
    ∀ a, a < s.base.toNat ∨ s.cfg.fbCap ≤ a → t.fbByte a = s.fbByte a

/-- 10_state.md section 3: a command reads only the bytes its rule names. A byte below BASE, or past both the header and
the stored frame, has no influence on what any command word reports or writes. -/
def Obligations.BytesOutsideTheFrameDoNotMatter : Prop :=
  ∀ (v : Word) (s : State) (x : Nat) (b : Byte),
    x < s.base.toNat ∨ (s.base.toNat + 8 ≤ x ∧ s.base.toNat + s.storedLen ≤ x) →
    ∃ t u, issueCommand v s = .next t ∧ issueCommand v (s.setFbByte x b) = .next u ∧
      u = { t with fb := u.fb } ∧ ∀ a, a ≠ x → u.fbByte a = t.fbByte a

/-! ## The invariant -/

/-- The invariant of the state: legal parameters (R5), a canonical listing of FB inside FB (log entry 4), and a STATUS
word that can occur (R28, R180, R162). Every step keeps it. -/
def Obligations.StepKeepsTheInvariant : Prop :=
  ∀ s t : State, s.Inv → step s = .next t → t.Inv

/-- The state after reset has the invariant, whatever the open parameters are. -/
def Obligations.ResetHasTheInvariant : Prop := State.reset.Inv

/-- 00_scope.md section 4: the parameters are the implementation's, so no step changes one (the model carries them in
State: log entry 3). -/
def Obligations.NoStepChangesTheParameters : Prop :=
  ∀ s : State, ∃ t, stepOn s = .next t ∧ t.cfg = s.cfg

/-! ## The CRC function (spec/41_crc_engine.md section 1) -/

/-- R131, R132 and R133: one iteration bit by bit (bit 31 of the logical shift is 0), an octet's eight iterations least
significant bit first, and a byte string's octets in order from zero, with no final exclusive-or. The bytes of an FB
range stand in index order. -/
def Obligations.CrcFollowsTheStatedIteration : Prop :=
  (∀ (s : State) (a n : Nat), (s.fbBytes a n).length = n ∧
    ∀ k, k < n → (s.fbBytes a n)[k]? = some (s.fbByte (a + k))) ∧
  (∀ (crc : Word) (d : Bool) (k : Nat), k < 32 →
    (crcBit crc d).getLsbD k =
      ((decide (k < 31) && crc.getLsbD (k + 1)) ^^ (Config.crcPoly.getLsbD k && (crc.getLsbD 0 ^^ d)))) ∧
  (∀ (crc : Word) (v : Byte),
    crcOctet crc v = (List.range 8).foldl (fun c k => crcBit c (v.getLsbD k)) crc) ∧
  crcAcc [] = 0x00000000#32 ∧ (∀ (xs : List Byte) (v : Byte), crcAcc (xs ++ [v]) = crcOctet (crcAcc xs) v) ∧
  ∀ xs : List Byte, crc32 xs = bitrev32 (crcAcc xs)

/-- R134: bitrev32 sends bit 31 − i to bit i, and the source's four stages compute it. -/
def Obligations.BitReversalIsTheFourStages : Prop :=
  (∀ (x : Word) (i : Nat), i < 32 → (bitrev32 x).getLsbD i = x.getLsbD (31 - i)) ∧
  ∀ x : Word, bitrev32Stages x = bitrev32 x

/-- 41_crc_engine.md section 1, linearity (the spec's own inference, R137 item 1). -/
def Obligations.CrcIsLinear : Prop :=
  ∀ xs ys : List Byte, xs.length = ys.length →
    crc32 (List.zipWith (fun x y => x ^^^ y) xs ys) = crc32 xs ^^^ crc32 ys

/-- 41_crc_engine.md section 1, zero bodies and leading zeros (the spec's own inference, R137 items 2 and 3). -/
def Obligations.CrcIgnoresLeadingZeros : Prop :=
  ∀ (n : Nat) (xs : List Byte), crc32 (List.replicate n 0x00#8) = 0x00000000#32 ∧
    crc32 (List.replicate n 0x00#8 ++ xs) = crc32 xs

/-- 41_crc_engine.md section 1, single-bit errors (the spec's own inference, R137 item 4): flipping any one bit of a
byte string changes its CRC. -/
def Obligations.CrcDetectsEverySingleBitError : Prop :=
  ∀ (xs ys : List Byte) (v : Byte) (j : Nat), j < 8 →
    crc32 (xs ++ (v ^^^ (0x01#8 <<< j)) :: ys) ≠ crc32 (xs ++ v :: ys)

/-- 41_crc_engine.md section 1, the equivalent MSB-first form (the spec's own inference, R137 item 5). -/
def Obligations.CrcEqualsTheMsbFirstForm : Prop :=
  ∀ xs : List Byte, crcMsbFirst xs = crc32 xs

/-! ## Commands in sequence -/

/-- 41_crc_engine.md section 2: after UPDATE_CRC with no change in between, CHECK_CRC gives CRCOK = 1 and the same CRC,
and a second UPDATE_CRC leaves every byte of FB as it is. -/
def Obligations.UpdatedFrameChecksOk : Prop :=
  ∀ s : State, s.ro = false → s.base.toNat + 8 ≤ s.cfg.fbCap → 12 ≤ s.storedLen →
    s.base.toNat + s.storedLen ≤ s.cfg.fbCap →
    ∃ t u w, exec .updateCrc s = .next t ∧ exec .checkCrc t = .next u ∧ statusErr u.status = 0x00#8 ∧
      statusCrcOk u.status = true ∧ u.result = t.result ∧
      exec .updateCrc t = .next w ∧ w.result = t.result ∧ ∀ a, w.fbByte a = t.fbByte a

/-- 41_crc_engine.md section 2 and 95_test_vectors.md section 1: after UPDATE_CRC, a host write that flips one bit of
one body byte makes CHECK_CRC report CRCOK = 0, unless the trailer is the sentinel. -/
def Obligations.BodyBitFlipIsDetected : Prop :=
  ∀ (s : State) (k j : Nat), s.ro = false → s.base.toNat + 8 ≤ s.cfg.fbCap → 12 ≤ s.storedLen →
    s.base.toNat + s.storedLen ≤ s.cfg.fbCap → k < s.storedLen - 12 → j < 8 → s.frameCrc ≠ s.cfg.nocrc →
    ∃ t m u, exec .updateCrc s = .next t ∧
      serve (.fbWrite (s.base.toNat + 8 + k) (s.fbByte (s.base.toNat + 8 + k) ^^^ (0x01#8 <<< j))) t = .next m ∧
      exec .checkCrc m = .next u ∧ u.status = 0x00000000#32

/-- R144: where the CRC of the body equals NOCRC, UPDATE_CRC writes NOCRC, CHECK_CRC then reports NOCRC = 1 and
CRCOK = 1, and a later change to the body is not detected. -/
def Obligations.CrcEqualToSentinelReadsAsNoCrc : Prop :=
  ∀ (s : State) (k : Nat) (b : Byte), s.ro = false → s.base.toNat + 8 ≤ s.cfg.fbCap → 12 ≤ s.storedLen →
    s.base.toNat + s.storedLen ≤ s.cfg.fbCap → k < s.storedLen - 12 → s.frameCrc = s.cfg.nocrc →
    ∃ t u m w, exec .updateCrc s = .next t ∧ t.fbWord (s.base.toNat + s.storedLen - 4) = s.cfg.nocrc ∧
      exec .checkCrc t = .next u ∧ u.status = 0x00000600#32 ∧
      serve (.fbWrite (s.base.toNat + 8 + k) b) t = .next m ∧ exec .checkCrc m = .next w ∧
      w.status = 0x00000600#32

/-- 40_header_codec.md (R104's source sentence): a length that SET_LENGTH accepts is exactly reflected by GET_LENGTH,
the count is not disturbed, and the frame then checks as carrying no CRC. -/
def Obligations.SetLengthIsReflectedByGetLength : Prop :=
  ∀ s : State, s.ro = false → s.arg.toNat % 4 = 0 → 12 ≤ s.arg.toNat → s.arg.toNat ≤ 0x3FFFFC →
    s.base.toNat + s.arg.toNat ≤ s.cfg.fbCap →
    ∃ t u c k, exec .setLength s = .next t ∧ exec .getLength t = .next u ∧ u.result = s.arg ∧
      exec .getCount t = .next c ∧ exec .getCount s = .next k ∧ c.result = k.result ∧
      t.storedLen = s.arg.toNat ∧ t.trailer = s.cfg.nocrc

/-- 40_header_codec.md (R106's source sentence): a count that SET_COUNT accepts is read back by GET_COUNT, the length
is not disturbed, and CHECK_CRC then reports the sentinel. -/
def Obligations.SetCountIsReflectedByGetCount : Prop :=
  ∀ s : State, s.ro = false → s.arg.toNat ≤ 4095 → s.base.toNat + 8 ≤ s.cfg.fbCap → 12 ≤ s.storedLen →
    s.base.toNat + s.storedLen ≤ s.cfg.fbCap →
    ∃ t u c, exec .setCount s = .next t ∧ exec .getCount t = .next u ∧ u.result = s.arg ∧
      t.storedLen = s.storedLen ∧ exec .checkCrc t = .next c ∧ c.status = 0x00000600#32

/-- 40_header_codec.md INIT and 42_control_and_validation.md: the frame that INIT makes validates, with no expected
length and with the expected length 12, and checks as carrying no CRC. -/
def Obligations.InitFrameValidates : Prop :=
  ∀ s : State, s.ro = false → s.base.toNat + 12 ≤ s.cfg.fbCap →
    ∃ t u v w, exec .init s = .next t ∧
      exec .validate { t with arg := 0xFFFFFFFF#32 } = .next u ∧ u.status = 0x00000800#32 ∧
      exec .validate { t with arg := 0x0000000C#32 } = .next v ∧ v.status = 0x00000800#32 ∧
      exec .checkCrc t = .next w ∧ w.status = 0x00000600#32 ∧ w.result = 0x00000000#32

/-- 42_control_and_validation.md VALIDATE: a frame that VALIDATE finds valid starts with FAW, has a length the block
accepts that fits in FB and equals the expected one, if any was given, and its trailer passes CHECK_CRC. -/
def Obligations.ValidFramePassesEveryCheck : Prop :=
  ∀ s : State, ∃ t u, exec .validate s = .next t ∧ exec .checkCrc s = .next u ∧
    (statusValid t.status = true ↔
      s.fbWord s.base.toNat = s.cfg.faw ∧ 12 ≤ s.storedLen ∧ s.base.toNat + s.storedLen ≤ s.cfg.fbCap ∧
      (s.arg = 0xFFFFFFFF#32 ∨ s.storedLen = s.arg.toNat) ∧ statusCrcOk u.status = true)
end

