-- ==== Sys2Proof/Laws/State.lean ====
section
/-! SUPPORT. What each update of the state leaves in each field, one lemma per field per update. -/

namespace Sys2Proof.Machine

/-! ## `setFbByte` -/

@[simp] theorem setFbByte_cfg (i : Nat) (b : Byte) (s : State) : (s.setFbByte i b).cfg = s.cfg := rfl
@[simp] theorem setFbByte_ro (i : Nat) (b : Byte) (s : State) : (s.setFbByte i b).ro = s.ro := rfl
@[simp] theorem setFbByte_base (i : Nat) (b : Byte) (s : State) : (s.setFbByte i b).base = s.base := rfl
@[simp] theorem setFbByte_arg (i : Nat) (b : Byte) (s : State) : (s.setFbByte i b).arg = s.arg := rfl
@[simp] theorem setFbByte_status (i : Nat) (b : Byte) (s : State) : (s.setFbByte i b).status = s.status := rfl
@[simp] theorem setFbByte_result (i : Nat) (b : Byte) (s : State) : (s.setFbByte i b).result = s.result := rfl
@[simp] theorem setFbByte_fb (i : Nat) (b : Byte) (s : State) : (s.setFbByte i b).fb = Memory.write s.cfg s.fb i b := rfl
@[simp] theorem setFbByte_pending (i : Nat) (b : Byte) (s : State) : (s.setFbByte i b).pending = s.pending := rfl
@[simp] theorem setFbByte_response (i : Nat) (b : Byte) (s : State) : (s.setFbByte i b).response = s.response := rfl

/-! ## `setFbWord` -/

@[simp] theorem setFbWord_cfg (a : Nat) (v : Word) (s : State) : (s.setFbWord a v).cfg = s.cfg := rfl
@[simp] theorem setFbWord_ro (a : Nat) (v : Word) (s : State) : (s.setFbWord a v).ro = s.ro := rfl
@[simp] theorem setFbWord_base (a : Nat) (v : Word) (s : State) : (s.setFbWord a v).base = s.base := rfl
@[simp] theorem setFbWord_arg (a : Nat) (v : Word) (s : State) : (s.setFbWord a v).arg = s.arg := rfl
@[simp] theorem setFbWord_status (a : Nat) (v : Word) (s : State) : (s.setFbWord a v).status = s.status := rfl
@[simp] theorem setFbWord_result (a : Nat) (v : Word) (s : State) : (s.setFbWord a v).result = s.result := rfl
@[simp] theorem setFbWord_pending (a : Nat) (v : Word) (s : State) : (s.setFbWord a v).pending = s.pending := rfl
@[simp] theorem setFbWord_response (a : Nat) (v : Word) (s : State) : (s.setFbWord a v).response = s.response := rfl

/-! ## `clearTrailerAt` -/

@[simp] theorem clearTrailerAt_cfg (a : Nat) (s : State) : (clearTrailerAt a s).cfg = s.cfg := rfl
@[simp] theorem clearTrailerAt_ro (a : Nat) (s : State) : (clearTrailerAt a s).ro = s.ro := rfl
@[simp] theorem clearTrailerAt_base (a : Nat) (s : State) : (clearTrailerAt a s).base = s.base := rfl
@[simp] theorem clearTrailerAt_arg (a : Nat) (s : State) : (clearTrailerAt a s).arg = s.arg := rfl
@[simp] theorem clearTrailerAt_status (a : Nat) (s : State) : (clearTrailerAt a s).status = s.status := rfl
@[simp] theorem clearTrailerAt_result (a : Nat) (s : State) : (clearTrailerAt a s).result = s.result := rfl
@[simp] theorem clearTrailerAt_fb (a : Nat) (s : State) : (clearTrailerAt a s).fb = (s.setFbWord a s.cfg.nocrc).fb := rfl
@[simp] theorem clearTrailerAt_pending (a : Nat) (s : State) : (clearTrailerAt a s).pending = s.pending := rfl
@[simp] theorem clearTrailerAt_response (a : Nat) (s : State) : (clearTrailerAt a s).response = s.response := rfl

/-! ## `raiseCmdError` -/

@[simp] theorem raiseCmdError_cfg (e : CmdError) (s : State) : (raiseCmdError e s).cfg = s.cfg := rfl
@[simp] theorem raiseCmdError_ro (e : CmdError) (s : State) : (raiseCmdError e s).ro = s.ro := rfl
@[simp] theorem raiseCmdError_base (e : CmdError) (s : State) : (raiseCmdError e s).base = s.base := rfl
@[simp] theorem raiseCmdError_arg (e : CmdError) (s : State) : (raiseCmdError e s).arg = s.arg := rfl
@[simp] theorem raiseCmdError_status (e : CmdError) (s : State) : (raiseCmdError e s).status = packStatus e.code {} := rfl
@[simp] theorem raiseCmdError_result (e : CmdError) (s : State) : (raiseCmdError e s).result = s.result := rfl
@[simp] theorem raiseCmdError_fb (e : CmdError) (s : State) : (raiseCmdError e s).fb = s.fb := rfl
@[simp] theorem raiseCmdError_pending (e : CmdError) (s : State) : (raiseCmdError e s).pending = s.pending := rfl
@[simp] theorem raiseCmdError_response (e : CmdError) (s : State) : (raiseCmdError e s).response = s.response := rfl

/-! ## `finish` -/

@[simp] theorem finish_cfg (f : ResultFlags) (s : State) : (finish f s).cfg = s.cfg := rfl
@[simp] theorem finish_ro (f : ResultFlags) (s : State) : (finish f s).ro = s.ro := rfl
@[simp] theorem finish_base (f : ResultFlags) (s : State) : (finish f s).base = s.base := rfl
@[simp] theorem finish_arg (f : ResultFlags) (s : State) : (finish f s).arg = s.arg := rfl
@[simp] theorem finish_status (f : ResultFlags) (s : State) : (finish f s).status = packStatus 0x00#8 f := rfl
@[simp] theorem finish_result (f : ResultFlags) (s : State) : (finish f s).result = s.result := rfl
@[simp] theorem finish_fb (f : ResultFlags) (s : State) : (finish f s).fb = s.fb := rfl
@[simp] theorem finish_pending (f : ResultFlags) (s : State) : (finish f s).pending = s.pending := rfl
@[simp] theorem finish_response (f : ResultFlags) (s : State) : (finish f s).response = s.response := rfl

/-! ## `setResult` -/

@[simp] theorem setResult_cfg (v : Word) (s : State) : (setResult v s).cfg = s.cfg := rfl
@[simp] theorem setResult_ro (v : Word) (s : State) : (setResult v s).ro = s.ro := rfl
@[simp] theorem setResult_base (v : Word) (s : State) : (setResult v s).base = s.base := rfl
@[simp] theorem setResult_arg (v : Word) (s : State) : (setResult v s).arg = s.arg := rfl
@[simp] theorem setResult_status (v : Word) (s : State) : (setResult v s).status = s.status := rfl
@[simp] theorem setResult_result (v : Word) (s : State) : (setResult v s).result = v := rfl
@[simp] theorem setResult_fb (v : Word) (s : State) : (setResult v s).fb = s.fb := rfl
@[simp] theorem setResult_pending (v : Word) (s : State) : (setResult v s).pending = s.pending := rfl
@[simp] theorem setResult_response (v : Word) (s : State) : (setResult v s).response = s.response := rfl

/-! ## `respond` -/

@[simp] theorem respond_cfg (r : HostResponse) (s : State) : (s.respond r).cfg = s.cfg := rfl
@[simp] theorem respond_ro (r : HostResponse) (s : State) : (s.respond r).ro = s.ro := rfl
@[simp] theorem respond_base (r : HostResponse) (s : State) : (s.respond r).base = s.base := rfl
@[simp] theorem respond_arg (r : HostResponse) (s : State) : (s.respond r).arg = s.arg := rfl
@[simp] theorem respond_status (r : HostResponse) (s : State) : (s.respond r).status = s.status := rfl
@[simp] theorem respond_result (r : HostResponse) (s : State) : (s.respond r).result = s.result := rfl
@[simp] theorem respond_fb (r : HostResponse) (s : State) : (s.respond r).fb = s.fb := rfl
@[simp] theorem respond_pending (r : HostResponse) (s : State) : (s.respond r).pending = s.pending := rfl
@[simp] theorem respond_response (r : HostResponse) (s : State) : (s.respond r).response = r := rfl

/-! ## `resetRegisters` -/

@[simp] theorem resetRegisters_cfg (s : State) : (resetRegisters s).cfg = s.cfg := rfl
@[simp] theorem resetRegisters_ro (s : State) : (resetRegisters s).ro = false := rfl
@[simp] theorem resetRegisters_base (s : State) : (resetRegisters s).base = 0#32 := rfl
@[simp] theorem resetRegisters_arg (s : State) : (resetRegisters s).arg = 0#32 := rfl
@[simp] theorem resetRegisters_status (s : State) : (resetRegisters s).status = 0#32 := rfl
@[simp] theorem resetRegisters_result (s : State) : (resetRegisters s).result = 0#32 := rfl
@[simp] theorem resetRegisters_fb (s : State) : (resetRegisters s).fb = s.fb := rfl
@[simp] theorem resetRegisters_pending (s : State) : (resetRegisters s).pending = s.pending := rfl
@[simp] theorem resetRegisters_response (s : State) : (resetRegisters s).response = s.response := rfl

/-! ## `afterBusError` -/

@[simp] theorem afterBusError_cfg (s : State) : s.afterBusError.cfg = s.cfg := rfl
@[simp] theorem afterBusError_ro (s : State) : s.afterBusError.ro = s.ro := rfl
@[simp] theorem afterBusError_base (s : State) : s.afterBusError.base = s.base := rfl
@[simp] theorem afterBusError_arg (s : State) : s.afterBusError.arg = s.arg := rfl
@[simp] theorem afterBusError_status (s : State) : s.afterBusError.status = s.status := rfl
@[simp] theorem afterBusError_result (s : State) : s.afterBusError.result = s.result := rfl
@[simp] theorem afterBusError_fb (s : State) : s.afterBusError.fb = s.fb := rfl
@[simp] theorem afterBusError_pending (s : State) : s.afterBusError.pending = s.pending.tail := rfl
@[simp] theorem afterBusError_response (s : State) : s.afterBusError.response = .busError := rfl

/-! ## `withFetchWord` -/

@[simp] theorem withFetchWord_cfg (nbits w : Nat) (s : State) : (s.withFetchWord nbits w).cfg = s.cfg := rfl
@[simp] theorem withFetchWord_ro (nbits w : Nat) (s : State) : (s.withFetchWord nbits w).ro = s.ro := rfl
@[simp] theorem withFetchWord_base (nbits w : Nat) (s : State) : (s.withFetchWord nbits w).base = s.base := rfl
@[simp] theorem withFetchWord_arg (nbits w : Nat) (s : State) : (s.withFetchWord nbits w).arg = s.arg := rfl
@[simp] theorem withFetchWord_status (nbits w : Nat) (s : State) : (s.withFetchWord nbits w).status = s.status := rfl
@[simp] theorem withFetchWord_result (nbits w : Nat) (s : State) : (s.withFetchWord nbits w).result = s.result := rfl
@[simp] theorem withFetchWord_fb (nbits w : Nat) (s : State) : (s.withFetchWord nbits w).fb = s.fb := rfl
@[simp] theorem withFetchWord_pending (nbits w : Nat) (s : State) : (s.withFetchWord nbits w).pending = .regWrite Reg.cmd.offset (max 32 nbits) (tableWord nbits w) :: s.pending := rfl
@[simp] theorem withFetchWord_response (nbits w : Nat) (s : State) : (s.withFetchWord nbits w).response = s.response := rfl

/-! ## States by their fields -/

/-- Two states with the same fields are one state. -/
theorem State.eq_of_fields {s t : State} (hcfg : s.cfg = t.cfg) (hro : s.ro = t.ro) (hbase : s.base = t.base)
    (harg : s.arg = t.arg) (hstatus : s.status = t.status) (hresult : s.result = t.result) (hfb : s.fb = t.fb)
    (hpending : s.pending = t.pending) (hresponse : s.response = t.response) : s = t := by
  cases s; cases t; simp_all

/-- A state that keeps everything but STATUS, RESULT and FB. -/
theorem State.eq_with_reports {s t : State} (hcfg : t.cfg = s.cfg) (hro : t.ro = s.ro) (hbase : t.base = s.base)
    (harg : t.arg = s.arg) (hpending : t.pending = s.pending) (hresponse : t.response = s.response) :
    t = { s with status := t.status, result := t.result, fb := t.fb } :=
  State.eq_of_fields hcfg hro hbase harg rfl rfl rfl hpending hresponse

end Sys2Proof.Machine
end

