-- ==== Sys2Proof/Laws/Memory.lean ====
section
/-! SUPPORT. The laws of the frame buffer: a read after a write, the canonical form, and words as their four bytes. -/

namespace Sys2Proof.Machine

namespace Memory

variable {c : Config}

/-! ## Reads after writes -/

theorem read_erase (m : List Host.Cell) (a x : Nat) :
    read c (erase m a) x = if x = a then unlistedByte c x else read c m x := by
  induction m with
  | nil => simp [erase, read]
  | cons h t ih =>
    obtain ⟨k, b⟩ := h
    by_cases hk : k = a
    · subst hk
      simp only [erase, List.filter_cons, bne_self_eq_false, Bool.false_eq_true, if_false] at ih ⊢
      by_cases hx : x = k
      · simpa [hx] using ih
      · simpa [hx, read, Ne.symm hx] using ih
    · have hkeep : erase ((k, b) :: t) a = (k, b) :: erase t a := by simp [erase, hk]
      rw [hkeep]
      by_cases hx : k = x
      · subst hx; simp [read, hk]
      · simp only [read, if_neg hx, ih]

theorem read_place (m : List Host.Cell) (a x : Nat) (b : Byte) (hm : ∀ y ∈ m, y.1 ≠ a) :
    read c (place a b m) x = if x = a then b else read c m x := by
  induction m with
  | nil => simp [place, read, eq_comm]
  | cons h t ih =>
    obtain ⟨k, v⟩ := h
    have hka : k ≠ a := hm (k, v) (List.mem_cons_self ..)
    have iht := ih fun y hy => hm y (List.mem_cons_of_mem _ hy)
    by_cases hlt : a < k
    · simp [place, hlt, read, eq_comm]
    · simp only [place, if_neg hlt, read]
      by_cases hx : k = x
      · subst hx; simp [hka]
      · simp only [if_neg hx, iht]

theorem mem_erase {m : List Host.Cell} {a : Nat} {y : Host.Cell} : y ∈ erase m a ↔ y ∈ m ∧ y.1 ≠ a := by
  simp [erase]

/-- A read after a write: the byte written at its index, and what stood there at every other. -/
theorem read_write (m : List Host.Cell) (a x : Nat) (b : Byte) :
    read c (write c m a b) x = if x = a then b else read c m x := by
  unfold write
  split
  · next h => rw [read_erase]; split <;> simp_all
  · rw [read_place _ _ _ _ fun y hy => (mem_erase.mp hy).2, read_erase]
    split <;> rfl

/-! ## The canonical form -/

theorem mem_place {m : List Host.Cell} {a : Nat} {b : Byte} {y : Host.Cell} :
    y ∈ place a b m ↔ y = (a, b) ∨ y ∈ m := by
  induction m with
  | nil => simp [place]
  | cons h t ih =>
    unfold place
    split
    · simp
    · simp only [List.mem_cons, ih]; tauto

theorem wf_erase {m : List Host.Cell} (h : wf c m) (a : Nat) : wf c (erase m a) :=
  ⟨h.1.sublist List.filter_sublist, fun x hx => h.2 x (mem_erase.mp hx).1⟩

theorem pairwise_place {m : List Host.Cell} {a : Nat} {b : Byte} (h : m.Pairwise (fun x y => x.1 < y.1))
    (hm : ∀ y ∈ m, y.1 ≠ a) : (place a b m).Pairwise (fun x y => x.1 < y.1) := by
  induction m with
  | nil => simp [place]
  | cons x t ih =>
    have hx := List.pairwise_cons.mp h
    have hxa : x.1 ≠ a := hm x (List.mem_cons_self ..)
    unfold place
    split
    · next hlt =>
      refine List.pairwise_cons.mpr ⟨fun y hy => ?_, h⟩
      obtain rfl | hy := List.mem_cons.mp hy
      · exact hlt
      · exact hlt.trans (hx.1 y hy)
    · next hnlt =>
      refine List.pairwise_cons.mpr ⟨fun y hy => ?_, ih hx.2 fun y hy => hm y (List.mem_cons_of_mem _ hy)⟩
      obtain rfl | hy := mem_place.mp hy
      · exact lt_of_le_of_ne (not_lt.mp hnlt) hxa
      · exact hx.1 y hy

/-- A write inside FB keeps the canonical form. -/
theorem wf_write {m : List Host.Cell} (h : wf c m) {a : Nat} (ha : a < c.fbCap) (b : Byte) : wf c (write c m a b) := by
  unfold write
  split
  · exact wf_erase h a
  · next hb =>
    refine ⟨pairwise_place (wf_erase h a).1 fun y hy => (mem_erase.mp hy).2, fun x hx => ?_⟩
    obtain rfl | hx := mem_place.mp hx
    · exact ⟨hb, ha⟩
    · exact (wf_erase h a).2 x hx

theorem wf_nil : wf c [] := by simp [wf]

theorem wf_cons {x : Host.Cell} {m : List Host.Cell} (h : wf c (x :: m)) :
    wf c m ∧ (∀ y ∈ m, x.1 < y.1) ∧ x.2 ≠ unlistedByte c x.1 :=
  ⟨⟨(List.pairwise_cons.mp h.1).2, fun y hy => h.2 y (List.mem_cons_of_mem _ hy)⟩,
    (List.pairwise_cons.mp h.1).1, (h.2 x (List.mem_cons_self ..)).1⟩

/-- An index below every listed one reads as fb_init. -/
theorem read_of_lt {m : List Host.Cell} {a : Nat} (h : ∀ y ∈ m, a < y.1) : read c m a = unlistedByte c a := by
  induction m with
  | nil => rfl
  | cons x t ih =>
    have hx := h x (List.mem_cons_self ..)
    simp only [read, if_neg (Nat.ne_of_gt hx)]
    exact ih fun y hy => h y (List.mem_cons_of_mem _ hy)

/-- Equal memories are equal data: two canonical listings that read alike are one listing. -/
theorem ext_of_wf {m n : List Host.Cell} (hm : wf c m) (hn : wf c n) (h : ∀ a, read c m a = read c n a) : m = n := by
  induction m generalizing n with
  | nil =>
    cases n with
    | nil => rfl
    | cons y n =>
      have := h y.1
      exact absurd (by simpa [read] using this.symm) (wf_cons hn).2.2
  | cons x m ih =>
    cases n with
    | nil =>
      have := h x.1
      exact absurd (by simpa [read] using this) (wf_cons hm).2.2
    | cons y n =>
      obtain ⟨hm', hxm, hxv⟩ := wf_cons hm
      obtain ⟨hn', hyn, hyv⟩ := wf_cons hn
      have hkey : x.1 = y.1 := by
        rcases lt_trichotomy x.1 y.1 with hlt | heq | hgt
        · have hy : read c (y :: n) x.1 = unlistedByte c x.1 := read_of_lt fun z hz => by
            obtain rfl | hz := List.mem_cons.mp hz
            · exact hlt
            · exact hlt.trans (hyn z hz)
          have := h x.1
          rw [hy] at this
          exact absurd (by simpa [read] using this) hxv
        · exact heq
        · have hx : read c (x :: m) y.1 = unlistedByte c y.1 := read_of_lt fun z hz => by
            obtain rfl | hz := List.mem_cons.mp hz
            · exact hgt
            · exact hgt.trans (hxm z hz)
          have := h y.1
          rw [hx] at this
          exact absurd (by simpa [read] using this.symm) hyv
      have hval : x.2 = y.2 := by simpa [read, hkey] using h x.1
      have hxy : x = y := Prod.ext hkey hval
      subst hxy
      refine congrArg _ (ih hm' hn' fun a => ?_)
      have := h a
      by_cases ha : x.1 = a
      · subst ha; rw [read_of_lt hxm, read_of_lt hyn]
      · simpa [read, ha] using this

end Memory

/-! ## Bytes and words of the frame buffer -/

/-- FB after one byte is written. -/
theorem fbByte_setFbByte (s : State) (a x : Nat) (b : Byte) :
    (s.setFbByte a b).fbByte x = if x = a then b else s.fbByte x :=
  Memory.read_write s.fb a x b

@[simp] theorem fbByte_setFbByte_same (s : State) (a : Nat) (b : Byte) : (s.setFbByte a b).fbByte a = b := by
  simp [fbByte_setFbByte]

theorem fbByte_setFbByte_ne (s : State) {a x : Nat} (b : Byte) (h : x ≠ a) :
    (s.setFbByte a b).fbByte x = s.fbByte x := by simp [fbByte_setFbByte, h]

/-- FB after one word is written: its four bytes, the most significant at the lowest index. -/
theorem fbByte_setFbWord (s : State) (a x : Nat) (v : Word) :
    (s.setFbWord a v).fbByte x =
      if x = a + 3 then v.extractLsb' 0 8
      else if x = a + 2 then v.extractLsb' 8 8
      else if x = a + 1 then v.extractLsb' 16 8
      else if x = a then v.extractLsb' 24 8
      else s.fbByte x := by
  simp only [State.setFbWord, fbByte_setFbByte]

/-- A word write leaves every byte outside its four alone. -/
theorem fbByte_setFbWord_outside (s : State) {a x : Nat} (v : Word) (h : x < a ∨ a + 4 ≤ x) :
    (s.setFbWord a v).fbByte x = s.fbByte x := by
  rw [fbByte_setFbWord]
  split_ifs <;> first | omega | rfl

/-- The word of four bytes taken from one word, in order, is that word. -/
theorem word_of_bytes (v : Word) :
    v.extractLsb' 24 8 ++ v.extractLsb' 16 8 ++ v.extractLsb' 8 8 ++ v.extractLsb' 0 8 = v := by
  apply BitVec.eq_of_getLsbD_eq
  intro i hi
  have h32 : i < 32 := hi
  simp only [BitVec.getLsbD_append, BitVec.getLsbD_extractLsb']
  split_ifs <;> rw [decide_eq_true (by omega), Bool.true_and] <;> congr 1 <;> omega

/-- A word read back where it was written. -/
@[simp] theorem fbWord_setFbWord_same (s : State) (a : Nat) (v : Word) : (s.setFbWord a v).fbWord a = v := by
  have h := word_of_bytes v
  simpa [State.fbWord, fbByte_setFbWord] using h

/-- A word write leaves every word that shares no byte with it alone. -/
theorem fbWord_setFbWord_disjoint (s : State) {a x : Nat} (v : Word) (h : x + 4 ≤ a ∨ a + 4 ≤ x) :
    (s.setFbWord a v).fbWord x = s.fbWord x := by
  simp only [State.fbWord]
  rw [fbByte_setFbWord_outside, fbByte_setFbWord_outside, fbByte_setFbWord_outside, fbByte_setFbWord_outside] <;> omega

/-- A byte write leaves every word that does not hold the byte alone. -/
theorem fbWord_setFbByte_outside (s : State) {a x : Nat} (b : Byte) (h : x < a ∨ a + 4 ≤ x) :
    (s.setFbByte x b).fbWord a = s.fbWord a := by
  simp only [State.fbWord]
  rw [fbByte_setFbByte_ne, fbByte_setFbByte_ne, fbByte_setFbByte_ne, fbByte_setFbByte_ne] <;> omega

/-- Two states whose FB reads alike on a range have the same bytes there. -/
theorem fbBytes_congr {s t : State} {a n : Nat} (h : ∀ x, a ≤ x → x < a + n → s.fbByte x = t.fbByte x) :
    s.fbBytes a n = t.fbBytes a n := by
  refine List.map_congr_left fun k hk => ?_
  have := List.mem_range.mp hk
  exact h _ (by omega) (by omega)

theorem length_fbBytes (s : State) (a n : Nat) : (s.fbBytes a n).length = n := by simp [State.fbBytes]

theorem getElem_fbBytes (s : State) (a n k : Nat) (h : k < (s.fbBytes a n).length) :
    (s.fbBytes a n)[k] = s.fbByte (a + k) := by simp [State.fbBytes]

/-- A word write outside a range leaves the range's bytes alone. -/
theorem fbBytes_setFbWord_outside (s : State) {a n x : Nat} (v : Word) (h : x + 4 ≤ a ∨ a + n ≤ x) :
    (s.setFbWord x v).fbBytes a n = s.fbBytes a n :=
  fbBytes_congr fun y _ _ => fbByte_setFbWord_outside s v (by omega)

/-- The bytes of a word, taken back out of it. -/
theorem bytes_of_word (b0 b1 b2 b3 : Byte) :
    (b0 ++ b1 ++ b2 ++ b3).extractLsb' 24 8 = b0 ∧ (b0 ++ b1 ++ b2 ++ b3).extractLsb' 16 8 = b1 ∧
    (b0 ++ b1 ++ b2 ++ b3).extractLsb' 8 8 = b2 ∧ (b0 ++ b1 ++ b2 ++ b3).extractLsb' 0 8 = b3 := by
  refine ⟨?_, ?_, ?_, ?_⟩ <;> apply BitVec.eq_of_getLsbD_eq <;> intro k hk <;> interval_cases k <;>
    simp only [BitVec.getLsbD_extractLsb', BitVec.getLsbD_append] <;> simp

/-- Two states whose words at `a` agree have the same four bytes there. -/
theorem fbByte_eq_of_fbWord_eq {s t : State} {a x : Nat} (h : s.fbWord a = t.fbWord a) (h1 : a ≤ x) (h2 : x < a + 4) :
    s.fbByte x = t.fbByte x := by
  have hs := bytes_of_word (s.fbByte a) (s.fbByte (a + 1)) (s.fbByte (a + 2)) (s.fbByte (a + 3))
  have ht := bytes_of_word (t.fbByte a) (t.fbByte (a + 1)) (t.fbByte (a + 2)) (t.fbByte (a + 3))
  simp only [State.fbWord] at h
  rw [h] at hs
  obtain ⟨k, hk, rfl⟩ : ∃ k, k < 4 ∧ x = a + k := ⟨x - a, by omega, by omega⟩
  interval_cases k
  · exact hs.1.symm.trans ht.1
  · exact hs.2.1.symm.trans ht.2.1
  · exact hs.2.2.1.symm.trans ht.2.2.1
  · exact hs.2.2.2.symm.trans ht.2.2.2

/-! ## The canonical form is kept -/

/-- A byte write inside FB keeps the canonical form. -/
theorem wf_setFbByte {s : State} (h : Memory.wf s.cfg s.fb) {i : Nat} (hi : i < s.cfg.fbCap) (b : Byte) :
    Memory.wf s.cfg (s.setFbByte i b).fb := Memory.wf_write h hi b

/-- A word write inside FB keeps the canonical form. -/
theorem wf_setFbWord {s : State} (h : Memory.wf s.cfg s.fb) {a : Nat} (ha : a + 4 ≤ s.cfg.fbCap) (v : Word) :
    Memory.wf s.cfg (s.setFbWord a v).fb :=
  Memory.wf_write (Memory.wf_write (Memory.wf_write (Memory.wf_write h (show a < s.cfg.fbCap by omega) _)
    (show a + 1 < s.cfg.fbCap by omega) _) (show a + 2 < s.cfg.fbCap by omega) _) (show a + 3 < s.cfg.fbCap by omega) _

/-- The memory of the state after reset has the canonical form. -/
theorem wf_reset : Memory.wf State.reset.cfg State.reset.fb := Memory.wf_nil

/-- What an update that leaves FB and the parameters alone leaves of FB's bytes. -/
theorem fbByte_congr {s t : State} (hc : s.cfg = t.cfg) (hf : s.fb = t.fb) (x : Nat) : s.fbByte x = t.fbByte x := by
  simp [State.fbByte, hc, hf]

theorem fbWord_congr {s t : State} (h : ∀ x, s.fbByte x = t.fbByte x) (a : Nat) : s.fbWord a = t.fbWord a := by
  simp [State.fbWord, h]

@[simp] theorem fbByte_raiseCmdError (e : CmdError) (s : State) (x : Nat) :
    (raiseCmdError e s).fbByte x = s.fbByte x := rfl
@[simp] theorem fbByte_finish (f : ResultFlags) (s : State) (x : Nat) : (finish f s).fbByte x = s.fbByte x := rfl
@[simp] theorem fbByte_setResult (v : Word) (s : State) (x : Nat) : (setResult v s).fbByte x = s.fbByte x := rfl
@[simp] theorem fbByte_respond (r : HostResponse) (s : State) (x : Nat) : (s.respond r).fbByte x = s.fbByte x := rfl
@[simp] theorem fbByte_resetRegisters (s : State) (x : Nat) : (resetRegisters s).fbByte x = s.fbByte x := rfl
@[simp] theorem fbWord_finish (f : ResultFlags) (s : State) (a : Nat) : (finish f s).fbWord a = s.fbWord a := rfl
@[simp] theorem fbWord_setResult (v : Word) (s : State) (a : Nat) : (setResult v s).fbWord a = s.fbWord a := rfl

/-! ## fb_init -/

/-- Every function from the indices of FB to bytes is some fb_init as plain data (log entry 4). -/
theorem unlistedByte_represents (f : Nat → Byte) (c : Config) (n i : Nat) (h : i < n) :
    unlistedByte { c with fbInit := (List.range n).map f } i = f i := by
  simp [unlistedByte, h]

/-- The power-up bytes of the machine at hand are its fb_init. -/
theorem unlistedByte_machine {i : Nat} (h : i < Config.machine.fbCap) :
    unlistedByte Config.machine i = Config.fbInitByte i := by
  have h' : i < Config.fbCapOpen := h
  simp [unlistedByte, Config.machine, h']

end Sys2Proof.Machine
end

