-- ==== Sys2Proof/Laws/Ops.lean ====
section
/-! SUPPORT. The laws of the operations a command ends in: the ordered checks, `raise CmdError` and `finish`, the fields
of a packed STATUS, and header word 1's fields. -/

namespace Sys2Proof.Machine

/-! ## Ordered checks -/

@[simp] theorem firstFailure_nil : firstFailure [] = none := rfl
@[simp] theorem firstFailure_cons_true (e : CmdError) (rest : Checks) : firstFailure ((true, e) :: rest) = some e := rfl
@[simp] theorem firstFailure_cons_false (e : CmdError) (rest : Checks) :
    firstFailure ((false, e) :: rest) = firstFailure rest := rfl

@[simp] theorem conclude_nil (s done : State) : conclude [] s done = done := rfl
@[simp] theorem conclude_cons_true (e : CmdError) (rest : Checks) (s done : State) :
    conclude ((true, e) :: rest) s done = raiseCmdError e s := rfl
@[simp] theorem conclude_cons_false (e : CmdError) (rest : Checks) (s done : State) :
    conclude ((false, e) :: rest) s done = conclude rest s done := rfl

/-- No check fails exactly when every one passes. -/
theorem firstFailure_eq_none {checks : Checks} : firstFailure checks = none ↔ ∀ c ∈ checks, c.1 = false := by
  induction checks with
  | nil => simp
  | cons c rest ih =>
    obtain ⟨failed, e⟩ := c
    cases failed <;> simp [ih]

/-- All that ordered checks can do: one of them fails and its error is raised on the untouched state, or none fails and
the command's own result stands. -/
theorem conclude_cases (checks : Checks) (s done : State) :
    (∃ e, firstFailure checks = some e ∧ (true, e) ∈ checks ∧ conclude checks s done = raiseCmdError e s) ∨
      (firstFailure checks = none ∧ conclude checks s done = done) := by
  induction checks with
  | nil => exact .inr ⟨rfl, rfl⟩
  | cons c rest ih =>
    obtain ⟨failed, e⟩ := c
    cases failed with
    | true => exact .inl ⟨e, rfl, List.mem_cons_self .., rfl⟩
    | false =>
      obtain ⟨e', h, hm, hc⟩ | ⟨h, hc⟩ := ih
      · exact .inl ⟨e', h, List.mem_cons_of_mem _ hm, hc⟩
      · exact .inr ⟨h, hc⟩

/-! ## STATUS -/

@[simp] theorem packStatus_illegal : packStatus CmdError.illegal.code {} = 0x00000001#32 := by decide
@[simp] theorem packStatus_readOnly : packStatus CmdError.readOnly.code {} = 0x00000002#32 := by decide
@[simp] theorem packStatus_bounds : packStatus CmdError.bounds.code {} = 0x00000003#32 := by decide
@[simp] theorem packStatus_arg : packStatus CmdError.arg.code {} = 0x00000004#32 := by decide
@[simp] theorem packStatus_malformed : packStatus CmdError.malformed.code {} = 0x00000005#32 := by decide
@[simp] theorem packStatus_ok : packStatus 0x00#8 {} = 0x00000000#32 := by decide
@[simp] theorem packStatus_isvrl (b : Bool) :
    packStatus 0x00#8 { isvrl := b } = if b then 0x00000100#32 else 0x00000000#32 := by cases b <;> decide
/-- CHECK_CRC's STATUS: the sentinel, else a match, else neither. -/
theorem packStatus_check (n c : Bool) :
    packStatus 0x00#8 { nocrc := n, crcok := n || c } =
      if n then 0x00000600#32 else if c then 0x00000200#32 else 0x00000000#32 := by
  cases n <;> cases c <;> decide
/-- VALIDATE's STATUS: VALID alone, or the finding's code in REASON. -/
theorem packStatus_validate (r : Reason) :
    packStatus 0x00#8 { valid := r == .valid, reason := r.code } =
      if r = .valid then 0x00000800#32 else r.code.setWidth 32 <<< 16 := by
  cases r <;> decide

/-- An error's STATUS is its code alone: `zext_32(code)`. -/
theorem packStatus_error (e : CmdError) : packStatus e.code {} = e.code.setWidth 32 := by cases e <;> decide

/-- What a raised error leaves: the status word only. -/
theorem raiseCmdError_eq (e : CmdError) (s : State) : raiseCmdError e s = { s with status := e.code.setWidth 32 } := by
  simp [raiseCmdError, packStatus_error]

/-! Each field of a packed STATUS reads back, and the reserved bits are 0. -/

@[simp] theorem statusErr_packStatus (e : BitVec 8) (f : ResultFlags) : statusErr (packStatus e f) = e :=
  BitVec.extractLsb'_append_eq_right

@[simp] theorem statusIsVrl_packStatus (e : BitVec 8) (f : ResultFlags) : statusIsVrl (packStatus e f) = f.isvrl := by
  simp only [statusIsVrl, packStatus, BitVec.getLsbD_append]
  simp

@[simp] theorem statusCrcOk_packStatus (e : BitVec 8) (f : ResultFlags) : statusCrcOk (packStatus e f) = f.crcok := by
  simp only [statusCrcOk, packStatus, BitVec.getLsbD_append]
  simp

@[simp] theorem statusNoCrc_packStatus (e : BitVec 8) (f : ResultFlags) : statusNoCrc (packStatus e f) = f.nocrc := by
  simp only [statusNoCrc, packStatus, BitVec.getLsbD_append]
  simp

@[simp] theorem statusValid_packStatus (e : BitVec 8) (f : ResultFlags) : statusValid (packStatus e f) = f.valid := by
  simp only [statusValid, packStatus, BitVec.getLsbD_append]
  simp

@[simp] theorem statusReason_packStatus (e : BitVec 8) (f : ResultFlags) :
    statusReason (packStatus e f) = f.reason := by
  apply BitVec.eq_of_getLsbD_eq
  intro k hk
  interval_cases k <;>
    simp only [statusReason, packStatus, BitVec.getLsbD_append, BitVec.getLsbD_extractLsb'] <;> simp

theorem packStatus_reserved (e : BitVec 8) (f : ResultFlags) :
    (packStatus e f).extractLsb' 12 4 = 0#4 ∧ (packStatus e f).extractLsb' 20 12 = 0#12 := by
  constructor <;> apply BitVec.eq_of_getLsbD_eq <;> intro k hk <;> interval_cases k <;>
    simp only [packStatus, BitVec.getLsbD_append, BitVec.getLsbD_extractLsb'] <;> simp

/-- The error code that ordered checks leave, where the command's own result reports none. -/
theorem statusErr_conclude (checks : Checks) (s done : State) (h : statusErr done.status = 0x00#8) :
    statusErr (conclude checks s done).status = ((firstFailure checks).map CmdError.code).getD 0x00#8 := by
  unfold conclude
  cases firstFailure checks <;> simp [h]

/-- An update that commutes with raising an error commutes with ordered checks. -/
theorem conclude_map (f : State → State) (hf : ∀ e s, f (raiseCmdError e s) = raiseCmdError e (f s))
    (checks : Checks) (s done : State) : f (conclude checks s done) = conclude checks (f s) (f done) := by
  unfold conclude
  cases firstFailure checks <;> simp [hf]

/-! ## Header word 1 -/

@[simp] theorem headerCount_packHeader (c : BitVec 12) (l : BitVec 20) : headerCount (packHeader c l) = c := by
  simpa [headerCount, packHeader] using BitVec.extractLsb'_append_eq_left (a := c) (b := l)

@[simp] theorem headerLenWords_packHeader (c : BitVec 12) (l : BitVec 20) : headerLenWords (packHeader c l) = l := by
  simpa [headerLenWords, packHeader] using BitVec.extractLsb'_append_eq_right (a := c) (b := l)

/-- A stored length is a multiple of 4 (spec/30_encoding.md R79). -/
theorem headerLength_mod (w1 : Word) : headerLength w1 % 4 = 0 := by simp [headerLength]

/-- A stored length is at most MAX_FRAME_LENGTH (spec/30_encoding.md R79). -/
theorem headerLength_le (w1 : Word) : headerLength w1 ≤ Config.maxFrameLength := by
  have := (headerLenWords w1).isLt
  simp only [headerLength, Config.maxFrameLength]
  omega

/-! ## HeaderFits and StoredLenOK -/

theorem headerFits_iff {s : State} {n : Nat} : s.headerFits n = true ↔ s.baseOff + n ≤ s.cfg.fbCap := by
  simp [State.headerFits]

theorem headerFits_eq_false_iff {s : State} {n : Nat} : s.headerFits n = false ↔ s.cfg.fbCap < s.baseOff + n := by
  simp [State.headerFits]

theorem storedLenOk_iff {s : State} :
    s.storedLenOk = true ↔ 12 ≤ s.storedLen ∧ s.baseOff + s.storedLen ≤ s.cfg.fbCap := by
  unfold State.storedLenOk Config.minFrameLength
  rw [Bool.and_eq_true, decide_eq_true_iff, decide_eq_true_iff]

theorem storedLenOk_eq_false_iff {s : State} :
    s.storedLenOk = false ↔ s.storedLen < 12 ∨ s.cfg.fbCap < s.baseOff + s.storedLen := by
  rw [← Bool.not_eq_true, storedLenOk_iff]
  omega

end Sys2Proof.Machine
end

