-- ==== Sys2Proof/Laws/Commands.lean ====
section
/-! SUPPORT. Each command with checks as one equation: its errors in their order, each condition a plain proposition
about BASE, ARG and FB_CAP, and what it leaves where none applies. -/

namespace Sys2Proof.Machine

/-- One check in front of the others. -/
theorem conclude_cons (p : Prop) [Decidable p] (b : Bool) (hb : b = true ↔ p) (e : CmdError) (rest : Checks)
    (s done : State) :
    conclude ((b, e) :: rest) s done = if p then raiseCmdError e s else conclude rest s done := by
  by_cases h : p
  · rw [if_pos h, hb.mpr h, conclude_cons_true]
  · rw [if_neg h, Bool.eq_false_iff.mpr (fun hb' => h (hb.mp hb')), conclude_cons_false]

theorem not_headerFits_iff {s : State} {n : Nat} :
    (!s.headerFits n) = true ↔ s.cfg.fbCap < s.base.toNat + n := by
  rw [Bool.not_eq_true', headerFits_eq_false_iff, State.baseOff]

theorem not_storedLenOk_iff {s : State} :
    (!s.storedLenOk) = true ↔ s.storedLen < 12 ∨ s.cfg.fbCap < s.base.toNat + s.storedLen := by
  rw [Bool.not_eq_true', storedLenOk_eq_false_iff, State.baseOff]

/-- The checks of the commands that use the trailer. -/
theorem conclude_trailerChecks (s done : State) :
    conclude (trailerChecks s) s done =
      if s.cfg.fbCap < s.base.toNat + 8 then raiseCmdError .bounds s
      else if s.storedLen < 12 ∨ s.cfg.fbCap < s.base.toNat + s.storedLen then raiseCmdError .malformed s
      else done := by
  unfold trailerChecks
  rw [conclude_cons _ _ not_headerFits_iff, conclude_cons _ _ not_storedLenOk_iff, conclude_nil]

theorem exec_init (s : State) :
    exec .init s = .next (
      if s.ro = true then raiseCmdError .readOnly s
      else if s.cfg.fbCap < s.base.toNat + 12 then raiseCmdError .bounds s
      else finish {} (((s.setFbWord s.base.toNat s.cfg.faw).setFbWord (s.base.toNat + 4) 0x00000003#32).setFbWord
        (s.base.toNat + 8) s.cfg.nocrc)) := by
  simp only [exec, execInit]
  rw [conclude_cons (s.ro = true) _ Iff.rfl, conclude_cons _ _ not_headerFits_iff, conclude_nil]
  rfl

theorem exec_isVrl (s : State) :
    exec .isVrl s = .next (
      if s.cfg.fbCap < s.base.toNat + 4 then raiseCmdError .bounds s
      else finish { isvrl := s.fbWord s.base.toNat == s.cfg.faw } s) := by
  simp only [exec, execIsVrl]
  rw [conclude_cons _ _ not_headerFits_iff, conclude_nil]
  rfl

theorem exec_getLength (s : State) :
    exec .getLength s = .next (
      if s.cfg.fbCap < s.base.toNat + 8 then raiseCmdError .bounds s
      else finish {} (setResult (BitVec.ofNat 32 s.storedLen) s)) := by
  have hv : (headerLenWords s.word1).setWidth 32 * 4#32 = BitVec.ofNat 32 s.storedLen := by
    apply BitVec.eq_of_toNat_eq
    have := (headerLenWords s.word1).isLt
    simp [State.storedLen, headerLength]
  simp only [exec, execGetLength]
  rw [conclude_cons _ _ not_headerFits_iff, conclude_nil, hv]

theorem exec_setLength (s : State) :
    exec .setLength s = .next (
      if s.ro = true then raiseCmdError .readOnly s
      else if s.arg.toNat % 4 ≠ 0 ∨ s.arg.toNat < 12 then raiseCmdError .arg s
      else if 0x3FFFFC < s.arg.toNat then raiseCmdError .bounds s
      else if s.cfg.fbCap < s.base.toNat + s.arg.toNat then raiseCmdError .bounds s
      else finish {} ((s.setFbWord (s.base.toNat + 4)
        (packHeader (headerCount s.word1) (BitVec.ofNat 20 (s.arg.toNat / 4)))).setFbWord
          (s.base.toNat + s.arg.toNat - 4) s.cfg.nocrc)) := by
  simp only [exec, execSetLength]
  rw [conclude_cons (s.ro = true) _ Iff.rfl,
    conclude_cons (s.arg.toNat % 4 ≠ 0 ∨ s.arg.toNat < 12)
      (decide (s.argVal % 4 ≠ 0) || decide (s.argVal < Config.minFrameLength))
      (by rw [Bool.or_eq_true, decide_eq_true_iff, decide_eq_true_iff]; rfl),
    conclude_cons (0x3FFFFC < s.arg.toNat) (decide (Config.maxFrameLength < s.argVal))
      (by rw [decide_eq_true_iff]; rfl),
    conclude_cons _ _ not_headerFits_iff, conclude_nil]
  rfl

theorem exec_getCount (s : State) :
    exec .getCount s = .next (
      if s.cfg.fbCap < s.base.toNat + 8 then raiseCmdError .bounds s
      else finish {} (setResult ((headerCount s.word1).setWidth 32) s)) := by
  simp only [exec, execGetCount]
  rw [conclude_cons _ _ not_headerFits_iff, conclude_nil]

theorem exec_setCount (s : State) :
    exec .setCount s = .next (
      if s.ro = true then raiseCmdError .readOnly s
      else if 4095 < s.arg.toNat then raiseCmdError .arg s
      else if s.cfg.fbCap < s.base.toNat + 8 then raiseCmdError .bounds s
      else if s.storedLen < 12 ∨ s.cfg.fbCap < s.base.toNat + s.storedLen then raiseCmdError .malformed s
      else finish {} ((s.setFbWord (s.base.toNat + 4)
        (packHeader (s.arg.extractLsb' 0 12) (headerLenWords s.word1))).setFbWord s.trailerAddr s.cfg.nocrc)) := by
  simp only [exec, execSetCount]
  rw [conclude_cons (s.ro = true) _ Iff.rfl,
    conclude_cons (4095 < s.arg.toNat) (decide (Config.countMax < s.argVal)) (by rw [decide_eq_true_iff]; rfl),
    conclude_trailerChecks]
  rfl

theorem exec_computeCrc (s : State) :
    exec .computeCrc s = .next (
      if s.cfg.fbCap < s.base.toNat + 8 then raiseCmdError .bounds s
      else if s.storedLen < 12 ∨ s.cfg.fbCap < s.base.toNat + s.storedLen then raiseCmdError .malformed s
      else finish {} (setResult s.frameCrc s)) := by
  simp only [exec, execComputeCrc]
  rw [conclude_trailerChecks]

theorem exec_updateCrc (s : State) :
    exec .updateCrc s = .next (
      if s.ro = true then raiseCmdError .readOnly s
      else if s.cfg.fbCap < s.base.toNat + 8 then raiseCmdError .bounds s
      else if s.storedLen < 12 ∨ s.cfg.fbCap < s.base.toNat + s.storedLen then raiseCmdError .malformed s
      else finish {} (setResult s.frameCrc (s.setFbWord s.trailerAddr s.frameCrc))) := by
  simp only [exec, execUpdateCrc]
  rw [conclude_cons (s.ro = true) _ Iff.rfl, conclude_trailerChecks]

theorem exec_checkCrc (s : State) :
    exec .checkCrc s = .next (
      if s.cfg.fbCap < s.base.toNat + 8 then raiseCmdError .bounds s
      else if s.storedLen < 12 ∨ s.cfg.fbCap < s.base.toNat + s.storedLen then raiseCmdError .malformed s
      else finish { nocrc := s.trailer == s.cfg.nocrc,
                    crcok := s.trailer == s.cfg.nocrc || s.trailer == s.frameCrc } (setResult s.frameCrc s)) := by
  simp only [exec, execCheckCrc]
  rw [conclude_trailerChecks]

theorem exec_clearCrc (s : State) :
    exec .clearCrc s = .next (
      if s.ro = true then raiseCmdError .readOnly s
      else if s.cfg.fbCap < s.base.toNat + 8 then raiseCmdError .bounds s
      else if s.storedLen < 12 ∨ s.cfg.fbCap < s.base.toNat + s.storedLen then raiseCmdError .malformed s
      else finish {} (s.setFbWord s.trailerAddr s.cfg.nocrc)) := by
  simp only [exec, execClearCrc]
  rw [conclude_cons (s.ro = true) _ Iff.rfl, conclude_trailerChecks]
  rfl

theorem exec_validate (s : State) :
    exec .validate s = .next (
      if s.cfg.fbCap < s.base.toNat + 8 then raiseCmdError .bounds s
      else finish { valid := validateReason s == .valid, reason := (validateReason s).code } s) := by
  simp only [exec, execValidate]
  rw [conclude_cons _ _ not_headerFits_iff, conclude_nil]

end Sys2Proof.Machine
end

