-- ==== Sys2Proof/Laws/Decode.lean ====
section
/-! SUPPORT. The laws of the decoder: the opcode map, and what an accepted and a rejected word look like. -/

namespace Sys2Proof

/-- The map gives an opcode to its own command only. -/
theorem opcode_of_opcodeInstr {op : BitVec 8} {i : Instr} (h : opcodeInstr op = some i) : op = i.opcode := by
  obtain ⟨r, hr, rfl⟩ := Option.map_eq_some_iff.mp h
  have hop : r.op = op := by simpa using List.find?_some hr
  have hm := List.mem_of_find?_eq_some hr
  simp only [opcodeMap, List.mem_cons, List.not_mem_nil, or_false] at hm
  subst hop
  rcases hm with rfl | rfl | rfl | rfl | rfl | rfl | rfl | rfl | rfl | rfl | rfl | rfl <;> rfl

/-- The map has every command. -/
@[simp] theorem opcodeInstr_opcode (i : Instr) : opcodeInstr i.opcode = some i := by cases i <;> decide

/-- The opcodes outside the map are 0x0C to 0xFF (R74). -/
theorem opcodeInstr_eq_none_iff {op : BitVec 8} : opcodeInstr op = none ↔ 0x0C ≤ op.toNat := by
  constructor
  · intro h
    by_contra hlt
    have hop : op = BitVec.ofNat 8 op.toNat := by simp
    generalize op.toNat = n at hlt hop
    subst hop
    have : n < 12 := by omega
    interval_cases n <;> revert h <;> decide
  · intro h
    cases hi : opcodeInstr op with
    | none => rfl
    | some i =>
      rw [opcode_of_opcodeInstr hi] at h
      revert h
      cases i <;> decide

/-- The fields of an accepted word. -/
theorem fields_of_decode_ok {v : Word} {i : Instr} (h : decode v = .ok i) :
    cmdReserved v = 0#23 ∧ cmdStrict v = false ∧ cmdOp v = i.opcode := by
  unfold decode at h
  split_ifs at h with h1 h2
  refine ⟨not_not.mp h1, Bool.eq_false_iff.mpr h2, ?_⟩
  cases hi : opcodeInstr (cmdOp v) with
  | none => rw [hi] at h; simp at h
  | some j =>
    rw [hi] at h
    obtain rfl : j = i := by simpa using h
    exact opcode_of_opcodeInstr hi

/-- A word is its fields: with RSV and S zero it is `zext_32(OP)`. -/
theorem eq_setWidth_of_fields {v : Word} (hr : cmdReserved v = 0#23) (hs : cmdStrict v = false) :
    v = (cmdOp v).setWidth 32 := by
  apply BitVec.eq_of_getLsbD_eq
  intro k hk
  simp only [cmdOp, BitVec.getLsbD_setWidth, BitVec.getLsbD_extractLsb', hk, decide_true, Bool.true_and, Nat.zero_add]
  rcases Nat.lt_trichotomy k 8 with h | rfl | h
  · simp [h]
  · simpa [cmdStrict] using hs
  · have hbit := congrArg (fun x => x.getLsbD (k - 9)) hr
    simp only [cmdReserved, BitVec.getLsbD_extractLsb'] at hbit
    rw [show 9 + (k - 9) = k by omega, decide_eq_true (by omega : k - 9 < 23)] at hbit
    simpa [Nat.not_lt.mpr h.le] using hbit

end Sys2Proof
end

