-- ==== Sys2Proof/Laws/PerInstr.lean ====
section
/-! SUPPORT. Statements made per instruction. EncodeFormat: a command's word has the form of spec/30_encoding.md R71,
with S = 0, RSV = 0 and an opcode that is not reserved (R72, R74). -/

namespace Sys2Proof.Laws.EncodeFormat

/-- The word of a command: RSV and S are 0 and OP is the command's opcode, at most 0x0B. -/
def Statement (i : Instr) : Prop :=
  cmdReserved (encode i) = 0#23 ∧ cmdStrict (encode i) = false ∧ cmdOp (encode i) = i.opcode ∧ i.opcode.toNat ≤ 0x0B

theorem nop : Statement .nop := by unfold Statement; decide
theorem init : Statement .init := by unfold Statement; decide
theorem isVrl : Statement .isVrl := by unfold Statement; decide
theorem getLength : Statement .getLength := by unfold Statement; decide
theorem setLength : Statement .setLength := by unfold Statement; decide
theorem getCount : Statement .getCount := by unfold Statement; decide
theorem setCount : Statement .setCount := by unfold Statement; decide
theorem computeCrc : Statement .computeCrc := by unfold Statement; decide
theorem updateCrc : Statement .updateCrc := by unfold Statement; decide
theorem checkCrc : Statement .checkCrc := by unfold Statement; decide
theorem clearCrc : Statement .clearCrc := by unfold Statement; decide
theorem validate : Statement .validate := by unfold Statement; decide

end Sys2Proof.Laws.EncodeFormat
end

