-- ==== Sys2Proof/Laws/Port.lean ====
section
/-! SUPPORT. All that a command, a command word, a host action and a step can do, said once each. -/

namespace Sys2Proof.Machine

/-- Every command answers a next state: none faults, none is refused. -/
theorem exec_answers (i : Instr) (s : State) : ∃ t, exec i s = .next t := by cases i <;> exact ⟨_, rfl⟩

/-- All that a command can do: it raises an error on the untouched state, or it succeeds (STATUS.ERR = 0), and then
only STATUS, RESULT and FB can differ. -/
theorem exec_cases (i : Instr) (s : State) :
    (∃ e, exec i s = .next (raiseCmdError e s)) ∨
      ∃ t, exec i s = .next t ∧ statusErr t.status = 0x00#8 ∧
        t = { s with status := t.status, result := t.result, fb := t.fb } := by
  cases i
  case nop => exact .inr ⟨finish {} s, rfl, by simp only [finish_status, statusErr_packStatus], rfl⟩
  all_goals
    simp only [exec, execInit, execIsVrl, execGetLength, execSetLength, execGetCount, execSetCount, execComputeCrc,
      execUpdateCrc, execCheckCrc, execClearCrc, execValidate]
    rcases conclude_cases _ _ _ with ⟨e, -, -, h⟩ | ⟨-, h⟩
    · exact .inl ⟨e, by rw [h]⟩
    · exact .inr ⟨_, rfl, by rw [h]; simp only [finish_status, statusErr_packStatus],
        by rw [h]; apply State.eq_with_reports <;> simp⟩

/-- A command word runs the command it decodes to, or, where it is illegal, raises ERR_ILLEGAL. -/
theorem issueCommand_cases (v : Word) (s : State) :
    (∃ i, decode v = .ok i ∧ issueCommand v s = exec i s) ∨
      ((∃ e, decode v = .error e) ∧ issueCommand v s = .next (raiseCmdError .illegal s)) := by
  unfold issueCommand
  cases h : decode v with
  | ok i => exact .inl ⟨i, rfl, rfl⟩
  | error e => exact .inr ⟨⟨e, rfl⟩, rfl⟩

/-- Every command word answers a next state. -/
theorem issueCommand_answers (v : Word) (s : State) : ∃ t, issueCommand v s = .next t := by
  obtain ⟨i, -, h⟩ | ⟨-, h⟩ := issueCommand_cases v s
  · rw [h]; exact exec_answers i s
  · exact ⟨_, h⟩

/-- What a decoded register write does, register by register. -/
theorem writeRegAt_cases (s : State) (off : BitVec 8) (v : Word) :
    (off = 0x00#8 ∧ writeRegAt s off v = .next { s with ro := v.getLsbD 0 }) ∨
    (off = 0x04#8 ∧ writeRegAt s off v = .next { s with base := v }) ∨
    (off = 0x08#8 ∧ writeRegAt s off v = .next { s with arg := v }) ∨
    (off = 0x0C#8 ∧ writeRegAt s off v = issueCommand v s) ∨
    (off ≠ 0x00#8 ∧ off ≠ 0x04#8 ∧ off ≠ 0x08#8 ∧ off ≠ 0x0C#8 ∧ writeRegAt s off v = .next s) := by
  unfold writeRegAt regAt
  split_ifs <;> simp_all [writeReg]

/-- All that serving a host action can do: the bus error where the block does not decode the access; else a read's
answer, a register or FB write, a command, or the reset of the registers. -/
theorem serve_cases (a : HostAction) (s : State) :
    (actionDecoded s.cfg a = false ∧ serve a s = .fault .busError) ∨
    (actionDecoded s.cfg a = true ∧
      ((∃ r, serve a s = .next (s.respond r)) ∨
       (∃ off width v, a = .regWrite off width v ∧ serve a s = writeRegAt (s.respond .done) off v) ∨
       (∃ i b, a = .fbWrite i b ∧ i < s.cfg.fbCap ∧ serve a s = .next ((s.setFbByte i b).respond .done)) ∨
       (a = .reset ∧ serve a s = .next ((resetRegisters s).respond .none)))) := by
  cases a with
  | regRead off width =>
    cases h : regAccessOk off width
    · exact .inl ⟨h, by simp [serve, h]⟩
    · exact .inr ⟨h, .inl ⟨.word (readRegAt s off), by simp only [serve, h, if_true]⟩⟩
  | regWrite off width v =>
    cases h : regAccessOk off width
    · exact .inl ⟨h, by simp [serve, h]⟩
    · exact .inr ⟨h, .inr (.inl ⟨off, width, v, rfl, by simp only [serve, h, if_true]⟩)⟩
  | fbRead i =>
    by_cases h : i < s.cfg.fbCap
    · exact .inr ⟨by simpa [actionDecoded] using h, .inl ⟨.byte (s.fbByte i), by simp only [serve, if_pos h]⟩⟩
    · exact .inl ⟨by simpa [actionDecoded] using h, by simp [serve, h]⟩
  | fbWrite i b =>
    by_cases h : i < s.cfg.fbCap
    · exact .inr ⟨by simpa [actionDecoded] using h, .inr (.inr (.inl ⟨i, b, rfl, h, by simp only [serve, if_pos h]⟩))⟩
    · exact .inl ⟨by simpa [actionDecoded] using h, by simp [serve, h]⟩
  | reset => exact .inr ⟨rfl, .inr (.inr (.inr ⟨rfl, rfl⟩))⟩

/-- A step waits, or serves the host's first action with that action taken. -/
theorem step_cases (s : State) :
    (s.pending = [] ∧ step s = .next s) ∨
      ∃ a rest, s.pending = a :: rest ∧ step s = serve a { s with pending := rest } := by
  unfold step hostStep
  cases h : s.pending with
  | nil => exact .inl ⟨rfl, rfl⟩
  | cons a rest => exact .inr ⟨a, rest, rfl, rfl⟩

/-- The step on a state whose first action is `a`. -/
theorem step_of_pending {s : State} {a : HostAction} {rest : List HostAction} (h : s.pending = a :: rest) :
    step s = serve a { s with pending := rest } := by simp [step, hostStep, h]

/-- The host's word runs next: the step after `withFetchWord` is the command that the table word decodes to. -/
theorem step_withFetchWord {s : State} {nbits w : Nat} {i : Instr} (hn : nbits ≤ 32)
    (h : decode (tableWord nbits w) = .ok i) :
    step (s.withFetchWord nbits w) = exec i { s with response := .done } := by
  have hmax : max 32 nbits = 32 := by omega
  rw [step_of_pending (withFetchWord_pending nbits w s), hmax]
  simp [serve, regAccessOk, Reg.offset, writeRegAt, regAt, writeReg, issueCommand, h, State.respond, State.withFetchWord,
    cmdWriteFirst]

/-- The harness decoder agrees with it: a table word's instruction is what the step after `withFetchWord` runs. -/
theorem step_withFetchWord_of_decodeTableWord {s : State} {nbits w : Nat} {i : Instr}
    (h : decodeTableWord nbits w = some i) :
    step (s.withFetchWord nbits w) = exec i { s with response := .done } := by
  unfold decodeTableWord at h
  split at h
  · next hn =>
    cases hd : decode (tableWord nbits w) with
    | ok j =>
      rw [hd] at h
      obtain rfl : j = i := by simpa [Except.toOption] using h
      exact step_withFetchWord hn hd
    | error e => rw [hd] at h; simp [Except.toOption] at h
  · simp at h

/-- A run goes on after a bus error. -/
theorem stepOn_of_fault {s : State} (h : step s = .fault .busError) : stepOn s = .next s.afterBusError := by
  simp [stepOn, h]

theorem stepOn_of_next {s t : State} (h : step s = .next t) : stepOn s = .next t := by simp [stepOn, h]

/-- Serving an action leaves the host's further actions alone. -/
theorem serve_pending {a : HostAction} {s t : State} (h : serve a s = .next t) : t.pending = s.pending := by
  rcases serve_cases a s with ⟨-, hf⟩ | ⟨-, ⟨r, hr⟩ | ⟨off, width, v, -, hw⟩ | ⟨i, b, -, -, hb⟩ | ⟨-, hr⟩⟩
  · rw [hf] at h; cases h
  · rw [hr] at h; cases h; rfl
  · rw [hw] at h
    rcases writeRegAt_cases (s.respond .done) off v with
      ⟨-, e⟩ | ⟨-, e⟩ | ⟨-, e⟩ | ⟨-, e⟩ | ⟨-, -, -, -, e⟩ <;> rw [e] at h
    case inr.inr.inr.inl =>
      obtain ⟨i, -, hi⟩ | ⟨-, hi⟩ := issueCommand_cases v (s.respond .done) <;> rw [hi] at h
      · obtain ⟨e, he⟩ | ⟨u, hu, -, hu'⟩ := exec_cases i (s.respond .done)
        · rw [he] at h; cases h; rfl
        · rw [hu] at h; cases h; rw [hu']; rfl
      · cases h; rfl
    all_goals cases h; rfl
  · rw [hb] at h; cases h; rfl
  · rw [hr] at h; cases h; rfl

/-- A served action answers a next state or the bus error. -/
theorem serve_answers (a : HostAction) (s : State) : (∃ t, serve a s = .next t) ∨ serve a s = .fault .busError := by
  rcases serve_cases a s with ⟨-, hf⟩ | ⟨-, ⟨r, hr⟩ | ⟨off, width, v, -, hw⟩ | ⟨i, b, -, -, hb⟩ | ⟨-, hr⟩⟩
  · exact .inr hf
  · exact .inl ⟨_, hr⟩
  · refine .inl ?_
    rw [hw]
    rcases writeRegAt_cases (s.respond .done) off v with
      ⟨-, e⟩ | ⟨-, e⟩ | ⟨-, e⟩ | ⟨-, e⟩ | ⟨-, -, -, -, e⟩ <;> rw [e]
    case inr.inr.inr.inl => exact issueCommand_answers _ _
    all_goals exact ⟨_, rfl⟩
  · exact .inl ⟨_, hb⟩
  · exact .inl ⟨_, hr⟩

/-- A run that goes on after bus errors answers a next state at every step. -/
theorem stepOn_answers (s : State) : ∃ t, stepOn s = .next t := by
  obtain ⟨-, h⟩ | ⟨a, rest, -, h⟩ := step_cases s
  · exact ⟨s, stepOn_of_next h⟩
  · obtain ⟨t, ht⟩ | hf := serve_answers a { s with pending := rest }
    · exact ⟨t, stepOn_of_next (h.trans ht)⟩
    · exact ⟨_, stepOn_of_fault (h.trans hf)⟩

theorem runOn_answers (n : Nat) (s : State) : ∃ t, runOn n s = .next t := by
  induction n generalizing s with
  | zero => exact ⟨s, rfl⟩
  | succ n ih =>
    obtain ⟨t, ht⟩ := stepOn_answers s
    obtain ⟨u, hu⟩ := ih t
    exact ⟨u, by simp only [runOn, ht, hu]⟩

/-- A host's sequence always completes, whatever its lines are. -/
theorem runScript_answers (lines : List HostLine) (s : State) : ∃ t, runScript lines s = .next t :=
  runOn_answers _ _

/-- A run of `m + n` steps is a run of `m` steps and then one of `n`. -/
theorem runOn_add (m n : Nat) {s t : State} (h : runOn m s = .next t) : runOn (m + n) s = runOn n t := by
  induction m generalizing s with
  | zero => cases h; rw [Nat.zero_add]
  | succ m ih =>
    obtain ⟨u, hu⟩ := stepOn_answers s
    rw [Nat.add_right_comm]
    simp only [runOn, hu] at h ⊢
    exact ih h

/-- The receive sequence always completes. -/
theorem receiveFrame_answers (b : Nat) (bytes : List Byte) (testFirst giveLength : Bool) (s : State) :
    ∃ t, receiveFrame b bytes testFirst giveLength s = .next t := by
  obtain ⟨t, ht⟩ := runScript_answers (receiveSequence b bytes testFirst giveLength) s
  simp only [receiveFrame, ht]
  cases t.response with
  | word v => exact runScript_answers _ _
  | none => exact ⟨t, rfl⟩
  | done => exact ⟨t, rfl⟩
  | byte _ => exact ⟨t, rfl⟩
  | busError => exact ⟨t, rfl⟩

/-- Induction over a run that goes on after bus errors: what holds at its start and what every step keeps holds
everywhere on it. -/
theorem ReachableFrom.induction {P : State → Prop} {s t : State} (h : ReachableFrom s t) (h0 : P s)
    (hstep : ∀ u v, P u → stepOn u = .next v → P v) : P t := by
  induction h with
  | refl => exact h0
  | tail _ hs ih => exact hstep _ _ ih hs

end Sys2Proof.Machine
end

