-- ==== Sys2Proof/Tests/Slice0.lean ====
section
/-! SUPPORT. The model's own tests: ill-formed terms refused, words written out from the encoding of
spec/30_encoding.md, the vectors of spec/95_test_vectors.md (each test names its own), and a witness for the hypotheses
of every obligation. -/

namespace Sys2Proof.Tests

open Sys2Proof Sys2Proof.Machine

/-! ## Small states. The instantiation is that of 95_test_vectors.md: FB_CAP = 64, FAW = "VRLP", NOCRC = "VEND", FB
0xAA everywhere. -/

def cfg64 : Config := ⟨64, 0x56524C50#32, 0x56454E44#32, [], 0xAA#8, 0, 0⟩

/-- Cells of the bytes from index `i` on. -/
def cellsAt : Nat → List Byte → List Host.Cell
  | _, [] => []
  | i, b :: bs => (i, b) :: cellsAt (i + 1) bs

/-- A state with BASE `b` and ARG `x`, and `bytes` in FB from index `i` on. -/
def st (b x : Word) (i : Nat) (bytes : List Byte) : State where
  cfg := cfg64
  ro := false
  base := b
  arg := x
  status := 0x00000000#32
  result := 0x00000000#32
  fb := cellsAt i bytes
  pending := []
  response := .none

/-- FB[0..11] after INIT. -/
def frame12 : List Byte := [0x56, 0x52, 0x4C, 0x50, 0x00, 0x00, 0x00, 0x03, 0x56, 0x45, 0x4E, 0x44]
/-- The sealed frame of UP-2: 16 bytes, body DE AD BE EF. -/
def frame16 : List Byte :=
  [0x56, 0x52, 0x4C, 0x50, 0x00, 0x00, 0x00, 0x04, 0xDE, 0xAD, 0xBE, 0xEF, 0x62, 0x3E, 0x1B, 0xBA]
/-- The start of SC-1 to SC-5. -/
def frameOne : List Byte :=
  [0x56, 0x52, 0x4C, 0x50, 0x00, 0x00, 0x00, 0x04, 0x00, 0x00, 0x00, 0x01, 0x69, 0x0C, 0xE0, 0xEE]

/-- The step after a CMD write of command `i`: STATUS, RESULT and the bytes FB[a..a+n-1]. -/
def report (i : Instr) (s : State) (a n : Nat) : Option (Word × Word × List Byte) :=
  match step { s with pending := [cmdAction i] } with
  | .next t => some (t.status, t.result, t.fbBytes a n)
  | .fault _ => none
  | .refused _ => none

/-! ## Well-formed terms: one ill-formed term for each check -/

/-- R5: FB_CAP below 12. -/
theorem test_wf_refuses_small_buffer : Config.wf { cfg64 with fbCap := 11 } = false := by decide
/-- R5: FB_CAP above 2^32 − 1. -/
theorem test_wf_refuses_large_buffer : Config.wf { cfg64 with fbCap := 4294967296 } = false := by decide
theorem test_wf_accepts : cfg64.wf = true ∧ Config.wf { cfg64 with fbCap := 12 } = true ∧
    Config.wf { cfg64 with fbCap := 4294967295 } = true := by decide
/-- R55: a misaligned offset, and a width other than 32. -/
theorem test_access_refused : regAccessOk 0x05#8 32 = false ∧ regAccessOk 0x04#8 16 = false ∧
    regAccessOk 0x04#8 32 = true := by decide
/-- Log entry 4: an unsorted listing, and a cell equal to what its index reads as. -/
theorem test_memory_wf_refuses : ¬ Memory.wf cfg64 [(3, 0x01#8), (2, 0x01#8)] ∧ ¬ Memory.wf cfg64 [(3, 0xAA#8)] ∧
    ¬ Memory.wf cfg64 [(64, 0x01#8)] := by decide

/-! ## Decoding: the words of R71 and R73, bit by bit: RSV[31:9], S[8], OP[7:0] -/

theorem test_decode_nop : decode 0b00000000000000000000000000000000#32 = .ok .nop := by decide
theorem test_decode_init : decode 0b00000000000000000000000000000001#32 = .ok .init := by decide
theorem test_decode_isVrl : decode 0b00000000000000000000000000000010#32 = .ok .isVrl := by decide
theorem test_decode_getLength : decode 0b00000000000000000000000000000011#32 = .ok .getLength := by decide
theorem test_decode_setLength : decode 0b00000000000000000000000000000100#32 = .ok .setLength := by decide
theorem test_decode_getCount : decode 0b00000000000000000000000000000101#32 = .ok .getCount := by decide
theorem test_decode_setCount : decode 0b00000000000000000000000000000110#32 = .ok .setCount := by decide
theorem test_decode_computeCrc : decode 0b00000000000000000000000000000111#32 = .ok .computeCrc := by decide
theorem test_decode_updateCrc : decode 0b00000000000000000000000000001000#32 = .ok .updateCrc := by decide
theorem test_decode_checkCrc : decode 0b00000000000000000000000000001001#32 = .ok .checkCrc := by decide
theorem test_decode_clearCrc : decode 0b00000000000000000000000000001010#32 = .ok .clearCrc := by decide
theorem test_decode_validate : decode 0b00000000000000000000000000001011#32 = .ok .validate := by decide
/-- DE-1, DE-4, DE-5: a reserved opcode, S = 1 and a bit of RSV, each named. -/
theorem test_decode_illegal : decode 0b00000000000000000000000000001100#32 = .error (.reservedOpcode 0x0C#8) ∧
    decode 0b00000000000000000000000100001011#32 = .error .strictBit ∧
    decode 0b00000000000000000000001000000000#32 = .error .reservedBits := by decide
theorem test_decodeTableWord : decodeTableWord 32 4 = some .setLength ∧ decodeTableWord 8 11 = some .validate ∧
    decodeTableWord 32 12 = none ∧ decodeTableWord 32 0x10B = none := by decide

/-! ## The CRC function: 95_test_vectors.md section 2 -/

/-- CRC-4, CRC-7 and CRC-9. -/
theorem test_crc_single_bits : crc32 [0x00, 0x00, 0x00, 0x01] = 0x690CE0EE#32 ∧ crc32 [0x80] = 0x04C11DB7#32 ∧
    crc32 [0x80, 0x00, 0x00, 0x00] = 0xDC6D9AB7#32 := by decide +kernel
/-- CRC-15, its accumulator and its value. -/
theorem test_crc_digits : crcAcc [0x31, 0x32, 0x33, 0x34, 0x35, 0x36, 0x37, 0x38, 0x39] = 0x2DFD2D88#32 ∧
    crc32 [0x31, 0x32, 0x33, 0x34, 0x35, 0x36, 0x37, 0x38, 0x39] = 0x11B4BFB4#32 := by decide +kernel
/-- Section 2.2. -/
theorem test_bitrev32 : bitrev32 0x12345678#32 = 0x1E6A2C48#32 ∧ bitrev32 0x0000FFFF#32 = 0xFFFF0000#32 := by
  decide +kernel

/-! ## The commands: 95_test_vectors.md section 3 -/

/-- R160's example. -/
theorem test_nop : report .nop { st 0xFFFFFFFF#32 0 0 [] with status := 0x00000003#32, ro := true } 0 1 =
    some (0x00000000#32, 0x00000000#32, [0xAA]) := by decide +kernel
/-- IN-2. -/
theorem test_init_at_the_end : report .init (st 52 0 0 []) 51 13 =
    some (0x00000000#32, 0x00000000#32, 0xAA#8 :: frame12) := by decide +kernel
/-- IN-5. -/
theorem test_init_does_not_wrap : report .init (st 0xFFFFFFFF#32 0 0 []) 0 4 =
    some (0x00000003#32, 0x00000000#32, [0xAA, 0xAA, 0xAA, 0xAA]) := by decide +kernel
/-- IV-4. -/
theorem test_isVrl_at_the_end : report .isVrl (st 60 0 60 [0x56, 0x52, 0x4C, 0x50]) 0 0 =
    some (0x00000100#32, 0x00000000#32, []) := by decide +kernel
/-- IV-3. -/
theorem test_isVrl_one_bit_off : report .isVrl (st 0 0 0 [0x56, 0x52, 0x4C, 0x51]) 0 0 =
    some (0x00000000#32, 0x00000000#32, []) := by decide +kernel
/-- GL-3. -/
theorem test_getLength_max : report .getLength (st 0 0 4 [0x00, 0x0F, 0xFF, 0xFF]) 0 0 =
    some (0x00000000#32, 0x003FFFFC#32, []) := by decide +kernel
/-- GL-4. -/
theorem test_getLength_ignores_count : report .getLength (st 0 0 4 [0xFF, 0xF0, 0x00, 0x03]) 0 0 =
    some (0x00000000#32, 0x0000000C#32, []) := by decide +kernel
/-- SL-2: header word 1 was 00500003. -/
theorem test_setLength_keeps_count :
    report .setLength (st 0 16 4 [0x00, 0x50, 0x00, 0x03, 0x56, 0x45, 0x4E, 0x44]) 4 12 =
      some (0x00000000#32, 0x00000000#32,
        [0x00, 0x50, 0x00, 0x04, 0x56, 0x45, 0x4E, 0x44, 0x56, 0x45, 0x4E, 0x44]) := by decide +kernel
/-- SL-10. -/
theorem test_setLength_above_max : report .setLength (st 0 0xFFFFFFFC#32 0 frame12) 4 4 =
    some (0x00000003#32, 0x00000000#32, [0x00, 0x00, 0x00, 0x03]) := by decide +kernel
/-- GC-1. -/
theorem test_getCount_max : report .getCount (st 0 0 4 [0xFF, 0xF0, 0x00, 0x03]) 0 0 =
    some (0x00000000#32, 0x00000FFF#32, []) := by decide +kernel
/-- GC-4. -/
theorem test_getCount_ignores_length : report .getCount (st 0 0 4 [0x00, 0x1F, 0xFF, 0xFF]) 0 0 =
    some (0x00000000#32, 0x00000001#32, []) := by decide +kernel
/-- SC-2 (RESULT is not written). -/
theorem test_setCount_clears_trailer : report .setCount (st 0 5 0 frameOne) 4 12 =
    some (0x00000000#32, 0x00000000#32,
      [0x00, 0x50, 0x00, 0x04, 0x00, 0x00, 0x00, 0x01, 0x56, 0x45, 0x4E, 0x44]) := by decide +kernel
/-- SC-9: ARG before MALFORMED. -/
theorem test_setCount_order : report .setCount (st 0 5000 4 [0x00, 0x00, 0x00, 0x02]) 4 4 =
    some (0x00000004#32, 0x00000000#32, [0x00, 0x00, 0x00, 0x02]) := by decide +kernel
/-- CR-2. -/
theorem test_computeCrc : report .computeCrc (st 0 0 0 frame16) 12 4 =
    some (0x00000000#32, 0x623E1BBA#32, [0x62, 0x3E, 0x1B, 0xBA]) := by decide +kernel
/-- CR-3. -/
theorem test_computeCrc_malformed : report .computeCrc (st 0 0 4 [0x00, 0x00, 0x00, 0x00]) 0 0 =
    some (0x00000005#32, 0x00000000#32, []) := by decide +kernel
/-- UP-2, from the sentinel trailer. -/
theorem test_updateCrc :
    report .updateCrc (st 0 0 0 (frame16.take 12 ++ [0x56, 0x45, 0x4E, 0x44])) 8 8 =
      some (0x00000000#32, 0x623E1BBA#32, [0xDE, 0xAD, 0xBE, 0xEF, 0x62, 0x3E, 0x1B, 0xBA]) := by decide +kernel
/-- UP-4. -/
theorem test_updateCrc_read_only : report .updateCrc { st 0 0 0 frame12 with ro := true } 8 4 =
    some (0x00000002#32, 0x00000000#32, [0x56, 0x45, 0x4E, 0x44]) := by decide +kernel
/-- CK-3. -/
theorem test_checkCrc_match : report .checkCrc (st 0 0 0 frame16) 0 0 =
    some (0x00000200#32, 0x623E1BBA#32, []) := by decide +kernel
/-- CK-4. -/
theorem test_checkCrc_body_changed : report .checkCrc (st 0 0 0 (frame16.set 11 0xEE)) 0 0 =
    some (0x00000000#32, 0x0B32FB54#32, []) := by decide +kernel
/-- CL-1. -/
theorem test_clearCrc : report .clearCrc { st 0 0 0 frame16 with result := 0x0B32FB54#32 } 8 8 =
    some (0x00000000#32, 0x0B32FB54#32, [0xDE, 0xAD, 0xBE, 0xEF, 0x56, 0x45, 0x4E, 0x44]) := by decide +kernel
/-- CL-2. -/
theorem test_clearCrc_read_only : report .clearCrc { st 0 0 0 frame12 with ro := true } 8 4 =
    some (0x00000002#32, 0x00000000#32, [0x56, 0x45, 0x4E, 0x44]) := by decide +kernel
/-- VA-9. -/
theorem test_validate_crc_mismatch : report .validate (st 0 16 0 (frame16.set 8 0x5E)) 0 0 =
    some (0x00050000#32, 0x00000000#32, []) := by decide +kernel
/-- VA-10: the length before the CRC. -/
theorem test_validate_order : report .validate (st 0 20 0 (frame16.set 8 0x5E)) 0 0 =
    some (0x00040000#32, 0x00000000#32, []) := by decide +kernel

/-! ## The step -/

/-- The host's word runs as the first command after reset: NOP (DE-7), and a reserved opcode (DE-1). -/
theorem test_first_step_after_reset :
    step (State.reset.withFetchWord 32 0) = .next { State.reset with response := .done } ∧
    step (State.reset.withFetchWord 32 0x0C) = .next { State.reset with status := 0x00000001#32, response := .done } :=
  ⟨step_withFetchWord (i := .nop) (by decide) (by decide), rfl⟩
/-- R187: an FB access at FB_CAP is a bus error, and the run goes on. -/
theorem test_bus_error_is_not_final :
    step { st 0 0 0 [] with pending := [.fbRead 64] } = .fault .busError ∧
    stepOn { st 0 0 0 [] with pending := [.fbRead 64] } = .next { st 0 0 0 [] with response := .busError } ∧
    step { st 0 0 0 [] with pending := [.fbRead 63] } = .next { st 0 0 0 [] with response := .byte 0xAA#8 } :=
  ⟨rfl, rfl, rfl⟩

/-! ## The receive sequence (R205) -/

/-- Steps 1 to 5, by way of IS_VRL with the byte count, and straight to VALIDATE with no expected length. -/
theorem test_receiveSequence :
    hostScript (receiveSequence 8 [0xA0, 0x07] true true) =
      [.regWrite 0x04#8 32 8#32, .fbWrite 8 0xA0, .fbWrite 9 0x07, .regWrite 0x0C#8 32 2#32, .regWrite 0x08#8 32 2#32,
        .regWrite 0x0C#8 32 0x0B#32, .regRead 0x10#8 32] ∧
    hostScript (receiveSequence 8 [0xA0, 0x07] false false) =
      [.regWrite 0x04#8 32 8#32, .fbWrite 8 0xA0, .fbWrite 9 0x07, .regWrite 0x08#8 32 0xFFFFFFFF#32,
        .regWrite 0x0C#8 32 0x0B#32, .regRead 0x10#8 32] := by decide
/-- Step 6: GET_COUNT and GET_LENGTH where VALID = 1, and nothing where it is 0. -/
theorem test_receiveFollowUp :
    hostScript (receiveFollowUp 0x00000800#32) =
      [.regWrite 0x0C#8 32 5#32, .regRead 0x14#8 32, .regWrite 0x0C#8 32 3#32, .regRead 0x14#8 32] ∧
    hostScript (receiveFollowUp 0x00050000#32) = [] := by decide

/-! ## Witnesses: for every obligation with hypotheses, a state and operands that meet them together, and for one with
several clauses each clause at the boundary of its range -/

theorem test_witness_DecodeAndEncodeAgree : Instr.setCount.wf = true ∧ decode 0x00000006#32 = .ok .setCount := by decide

theorem test_witness_IllegalWordsReportErrIllegal :
    (0x00000100#32).getLsbD 8 = true ∧ (0x80000001#32).extractLsb' 9 23 ≠ 0#23 ∧
    0x0C ≤ ((0x0000000C#32).extractLsb' 0 8).toNat ∧ ¬ 0x0C ≤ ((0x0000000B#32).extractLsb' 0 8).toNat ∧
    { st 0 0 0 [] with pending := [.regWrite 0x0C#8 32 0x0000000C#32] }.pending =
      .regWrite 0x0C#8 32 0x0000000C#32 :: [] := by decide

theorem test_witness_CmdWriteRunsTheDecodedCommand :
    { st 0 0 0 [] with pending := [.regWrite 0x0C#8 32 0x00000001#32] }.pending =
      .regWrite 0x0C#8 32 0x00000001#32 :: [] ∧ decode 0x00000001#32 = .ok .init := by decide

theorem test_witness_IdleStepChangesNothing : (st 0 0 0 []).pending = [] := by decide

/-- ActionsAreServedInIssueOrder: a served action and one that gets a bus error. -/
theorem test_witness_ActionsAreServedInIssueOrder :
    actionDecoded (st 0 0 0 []).cfg (.fbRead 63) = true ∧ actionDecoded (st 0 0 0 []).cfg (.fbRead 64) = false ∧
    actionDecoded (st 0 0 0 []).cfg .reset = true ∧
    { st 0 0 0 [] with pending := [.fbRead 63, .reset] }.pending = .fbRead 63 :: [.reset] ∧
    { st 0 0 0 [] with pending := [.fbRead 64, .reset] }.pending = .fbRead 64 :: [.reset] := by decide

/-- RegReadAnswersTheRegister: each register, and the first and the last reserved offset. -/
theorem test_witness_RegReadAnswersTheRegister :
    ∀ off ∈ [0x00#8, 0x04#8, 0x08#8, 0x0C#8, 0x10#8, 0x14#8, 0x18#8, 0xFC#8], off.toNat % 4 = 0 ∧
      { st 3 7 0 [] with pending := [.regRead off 32] }.pending = .regRead off 32 :: [] := by decide

/-- BaseStoresAnyValue: an unaligned value past FB, the host's last action, before a command and before a read; and a
BASE just past FB. -/
theorem test_witness_BaseStoresAnyValue :
    { st 0 0 0 [] with pending := [.regWrite 0x04#8 32 0xFFFFFFFF#32] }.pending =
      .regWrite 0x04#8 32 0xFFFFFFFF#32 :: [] ∧
    { st 0 0 0 [] with pending := [.regWrite 0x04#8 32 3#32, cmdAction .init] }.pending =
      .regWrite 0x04#8 32 3#32 :: [cmdAction .init] ∧
    { st 0 0 0 [] with pending := [.regWrite 0x04#8 32 0xFFFFFFFF#32, .regRead 0x04#8 32] }.pending =
      .regWrite 0x04#8 32 0xFFFFFFFF#32 :: .regRead 0x04#8 32 :: [] ∧
    (st 65 0 0 []).cfg.fbCap < (st 65 0 0 []).base.toNat ∧ Instr.isVrl ≠ .nop := by decide

theorem test_witness_ArgIsReadByThreeCommandsAndWrittenByNone :
    { st 0 0 0 [] with pending := [.regWrite 0x08#8 32 16#32, cmdAction .setLength] }.pending =
      .regWrite 0x08#8 32 16#32 :: [cmdAction .setLength] ∧
    { st 0 0 0 [] with pending := [.regWrite 0x08#8 32 0xFFFFFFFF#32, .regRead 0x08#8 32] }.pending =
      .regWrite 0x08#8 32 0xFFFFFFFF#32 :: .regRead 0x08#8 32 :: [] ∧
    Instr.getLength ≠ .setLength ∧ Instr.getLength ≠ .setCount ∧ Instr.getLength ≠ .validate := by decide

/-- CtrlHoldsTheReadOnlyFlag: the three clauses with hypotheses, the last at index 63 with RO = 1. -/
theorem test_witness_CtrlHoldsTheReadOnlyFlag :
    { st 0 0 0 [] with pending := [.regWrite 0x00#8 32 1#32, cmdAction .init] }.pending =
      .regWrite 0x00#8 32 1#32 :: [cmdAction .init] ∧
    { st 0 0 0 [] with pending := [.regWrite 0x00#8 32 0xFFFFFFFF#32, .regRead 0x00#8 32] }.pending =
      .regWrite 0x00#8 32 0xFFFFFFFF#32 :: .regRead 0x00#8 32 :: [] ∧
    { st 0 0 0 [] with ro := true }.ro = true ∧ 63 < { st 0 0 0 [] with ro := true }.cfg.fbCap := by decide

/-- RegisterAccessWidthAndAlignment: misaligned, too narrow, and the first and the last reserved offset; 0x14 is not
reserved. -/
theorem test_witness_RegisterAccessWidthAndAlignment :
    ((0x01#8).toNat % 4 ≠ 0 ∨ 32 ≠ 32) ∧ ((0x04#8).toNat % 4 ≠ 0 ∨ 16 ≠ 32) ∧
    ((0x18#8).toNat % 4 = 0 ∧ 0x18 ≤ (0x18#8).toNat) ∧ ((0xFC#8).toNat % 4 = 0 ∧ 0x18 ≤ (0xFC#8).toNat) ∧
    ¬ 0x18 ≤ (0x14#8).toNat ∧
    { st 0 0 0 [] with pending := [.regRead 0x04#8 16] }.pending = .regRead 0x04#8 16 :: [] ∧
    { st 0 0 0 [] with pending := [.regWrite 0x01#8 32 0#32] }.pending = .regWrite 0x01#8 32 0#32 :: [] ∧
    { st 0 0 0 [] with pending := [.regRead 0x18#8 32] }.pending = .regRead 0x18#8 32 :: [] ∧
    { st 0 0 0 [] with pending := [.regWrite 0xFC#8 32 1#32] }.pending = .regWrite 0xFC#8 32 1#32 :: [] := by decide

/-- FbIsReadAndWrittenByteByByte: the last index of FB and the first past it. -/
theorem test_witness_FbIsReadAndWrittenByteByByte :
    63 < cfg64.fbCap ∧ cfg64.fbCap ≤ 64 ∧
    { st 0 0 0 [] with pending := [.fbRead 63] }.pending = .fbRead 63 :: [] ∧
    { st 0 0 0 [] with pending := [.fbWrite 63 1] }.pending = .fbWrite 63 1 :: [] ∧
    { st 0 0 0 [] with pending := [.fbRead 64] }.pending = .fbRead 64 :: [] ∧
    { st 0 0 0 [] with pending := [.fbWrite 64 1] }.pending = .fbWrite 64 1 :: [] := by decide

theorem test_witness_BusErrorsAreTheOnlyFaults :
    step { st 0 0 0 [] with pending := [.regRead 0x04#8 16] } = .fault .busError ∧
    step { st 0 0 0 [] with pending := [.regWrite 0x02#8 32 0#32] } = .fault .busError ∧
    step { st 0 0 0 [] with pending := [.fbWrite 64 0#8] } = .fault .busError :=
  ⟨rfl, rfl, rfl⟩

/-- WordsInFbAreBigEndian: the last word of FB. -/
theorem test_witness_WordsInFbAreBigEndian : 60 + 3 < cfg64.fbCap ∧
    { st 0 0 0 [] with pending := [.fbWrite 60 1, .fbWrite 61 2, .fbWrite 62 3, .fbWrite 63 4] }.pending =
      .fbWrite 60 1 :: .fbWrite (60 + 1) 2 :: .fbWrite (60 + 2) 3 :: .fbWrite (60 + 3) 4 :: [] := by decide

theorem test_witness_StatusReadSeesTheCommandBeforeIt :
    { st 0 0 0 [] with pending := [.regWrite 0x0C#8 32 3#32, .regRead 0x10#8 32, .regRead 0x14#8 32] }.pending =
      .regWrite 0x0C#8 32 3#32 :: .regRead 0x10#8 32 :: .regRead 0x14#8 32 :: [] := by decide

/-- ResetStateHoldsTheResetValues and ResetActionClearsRegistersAndKeepsFb: the open FB_CAP is at least 12. -/
theorem test_witness_ResetStateHoldsTheResetValues : 11 < State.reset.cfg.fbCap :=
  Nat.lt_of_lt_of_le (by decide) (Nat.le_max_left 12 _)

theorem test_witness_ResetActionClearsRegistersAndKeepsFb :
    { st 3 7 0 [] with pending := [.reset] }.pending = .reset :: [] := by decide

/-- HeaderDecodesToCountAndLength: the empty body, and the first byte of a body. -/
theorem test_witness_HeaderDecodesToCountAndLength : (st 0 0 0 frame12).storedLen = 12 ∧
    12 ≤ (st 0 0 0 frame16).storedLen ∧ 0 < (st 0 0 0 frame16).bodyBytes.length := by decide +kernel

theorem test_witness_HeaderEncodesCountAndLength : 4095 ≤ 4095 ∧ 0x3FFFFC % 4 = 0 ∧ 0x3FFFFC ≤ 0x3FFFFC := by decide

theorem test_witness_NopClearsStatusOnly :
    (0x00000100#32).extractLsb' 0 8 = 0x00#8 ∧ (0x00000100#32) ≠ 0x00000000#32 := by decide

/-- InitWritesTheMinimalFrame: BASE = FB_CAP − 12, RO = 1, and BASE = FB_CAP − 11. -/
theorem test_witness_InitWritesTheMinimalFrame :
    (st 52 0 0 []).ro = false ∧ (st 52 0 0 []).base.toNat + 12 ≤ cfg64.fbCap ∧
    { st 52 0 0 [] with ro := true }.ro = true ∧ cfg64.fbCap < (st 53 0 0 []).base.toNat + 12 := by decide

/-- IsVrlTestsTheAlignmentWord: BASE = FB_CAP − 4 and FB_CAP − 3. -/
theorem test_witness_IsVrlTestsTheAlignmentWord :
    (st 60 0 0 []).base.toNat + 4 ≤ cfg64.fbCap ∧ cfg64.fbCap < (st 61 0 0 []).base.toNat + 4 := by decide

/-- GetLengthAnswersTheStoredLength, GetCountAnswersTheFrameCount: BASE = FB_CAP − 8 and FB_CAP − 7. -/
theorem test_witness_GetLengthAndGetCount :
    (st 56 0 0 []).base.toNat + 8 ≤ (st 56 0 0 []).cfg.fbCap ∧
    (st 57 0 0 []).cfg.fbCap < (st 57 0 0 []).base.toNat + 8 := by decide

/-- SetLengthWritesLengthAndClearsTrailer: ARG = 12 at BASE = FB_CAP − 12, RO = 1, ARG = 14 and 8, ARG = 0x400000, and
ARG = 68. -/
theorem test_witness_SetLengthWritesLengthAndClearsTrailer :
    ((st 52 12 0 []).ro = false ∧ (st 52 12 0 []).arg.toNat % 4 = 0 ∧ 12 ≤ (st 52 12 0 []).arg.toNat ∧
      (st 52 12 0 []).arg.toNat ≤ 0x3FFFFC ∧
      (st 52 12 0 []).base.toNat + (st 52 12 0 []).arg.toNat ≤ (st 52 12 0 []).cfg.fbCap) ∧
    { st 0 14 0 [] with ro := true }.ro = true ∧
    (st 0 14 0 []).arg.toNat % 4 ≠ 0 ∧ (st 0 8 0 []).arg.toNat < 12 ∧
    ((st 0 0x400000 0 []).arg.toNat % 4 = 0 ∧ 0x3FFFFC < (st 0 0x400000 0 []).arg.toNat) ∧
    ((st 0 68 0 []).arg.toNat % 4 = 0 ∧ 12 ≤ (st 0 68 0 []).arg.toNat ∧ (st 0 68 0 []).arg.toNat ≤ 0x3FFFFC ∧
      (st 0 68 0 []).cfg.fbCap < (st 0 68 0 []).base.toNat + (st 0 68 0 []).arg.toNat) := by decide

/-- The largest length is accepted where FB holds it (SL-15's start). -/
theorem test_witness_SetLength_max :
    let s := { st 0 0x3FFFFC 0 frame12 with cfg := { cfg64 with fbCap := 0x400000 } }
    s.ro = false ∧ s.arg.toNat % 4 = 0 ∧ 12 ≤ s.arg.toNat ∧ s.arg.toNat ≤ 0x3FFFFC ∧
      s.base.toNat + s.arg.toNat ≤ s.cfg.fbCap := by decide

/-- The commands that use the trailer: a frame of exactly 12 bytes at BASE = FB_CAP − 12, RO = 1, a header that does not
fit, a stored length of 8, and a stored frame past FB (SC-6, SC-7). -/
theorem test_witness_TrailerCommands :
    ((st 52 0 52 frame12).ro = false ∧ (st 52 0 52 frame12).base.toNat + 8 ≤ (st 52 0 52 frame12).cfg.fbCap ∧
      12 ≤ (st 52 0 52 frame12).storedLen ∧
      (st 52 0 52 frame12).base.toNat + (st 52 0 52 frame12).storedLen ≤ (st 52 0 52 frame12).cfg.fbCap) ∧
    { st 0 0 0 [] with ro := true }.ro = true ∧
    (st 57 0 0 []).cfg.fbCap < (st 57 0 0 []).base.toNat + 8 ∧
    ((st 0 0 4 [0x00, 0x00, 0x00, 0x02]).base.toNat + 8 ≤ cfg64.fbCap ∧
      (st 0 0 4 [0x00, 0x00, 0x00, 0x02]).storedLen < 12) ∧
    ((st 0 0 4 [0x00, 0x00, 0x00, 0x11]).base.toNat + 8 ≤ cfg64.fbCap ∧
      cfg64.fbCap < (st 0 0 4 [0x00, 0x00, 0x00, 0x11]).base.toNat + (st 0 0 4 [0x00, 0x00, 0x00, 0x11]).storedLen) := by
  decide +kernel

/-- SetCountWritesCountAndClearsTrailer, SetCountIsReflectedByGetCount: ARG = 4095 and 4096 on a whole frame. -/
theorem test_witness_SetCountWritesCountAndClearsTrailer :
    ((st 0 4095 0 frame16).ro = false ∧ (st 0 4095 0 frame16).arg.toNat ≤ 4095 ∧
      (st 0 4095 0 frame16).base.toNat + 8 ≤ cfg64.fbCap ∧ 12 ≤ (st 0 4095 0 frame16).storedLen ∧
      (st 0 4095 0 frame16).base.toNat + (st 0 4095 0 frame16).storedLen ≤ cfg64.fbCap) ∧
    4095 < (st 0 4096 0 frame16).arg.toNat ∧
    ((st 57 0 0 []).ro = false ∧ (st 57 0 0 []).arg.toNat ≤ 4095 ∧ cfg64.fbCap < (st 57 0 0 []).base.toNat + 8) := by
  decide +kernel

/-- CheckCrcTestsTheTrailer, ValidateReportsTheFirstFailingCheck: a trailer that is the sentinel, one that is the CRC
and one that is neither. -/
theorem test_witness_CheckCrcTestsTheTrailer :
    (st 0 0 0 frame12).trailer = cfg64.nocrc ∧
    ((st 0 0 0 frame16).trailer ≠ cfg64.nocrc ∧ (st 0 0 0 frame16).trailer = (st 0 0 0 frame16).frameCrc) ∧
    ((st 0 0 0 (frame16.set 8 0x5E)).trailer ≠ cfg64.nocrc ∧
      (st 0 0 0 (frame16.set 8 0x5E)).trailer ≠ (st 0 0 0 (frame16.set 8 0x5E)).frameCrc) := by decide +kernel

/-- ErrorsArePreciseAndAllOrNothing, StatusIsRewrittenByEveryCommand, ResultIsWrittenByFiveCommandsOnSuccess and
ErrorCodesComeFromTheirCommands: a command that ends in an error, and one that succeeds with a result field. -/
theorem test_witness_ErrorsArePreciseAndAllOrNothing :
    (∃ t, issueCommand 0x00000002#32 (st 61 0 0 []) = .next t ∧ statusErr t.status ≠ 0x00#8) ∧
    (∃ t, issueCommand 0x0000000B#32 (st 0 20 0 frame16) = .next t ∧ statusErr t.status = 0x00#8 ∧
      statusReason t.status ≠ 0#4) :=
  ⟨⟨_, rfl, by decide +kernel⟩, ⟨_, rfl, by decide +kernel⟩⟩

theorem test_witness_StatusIsRewrittenByEveryCommand :
    { st 0 0 0 [] with pending := [.regWrite 0x10#8 32 0xFFFFFFFF#32] }.pending =
      .regWrite 0x10#8 32 0xFFFFFFFF#32 :: [] := by decide

theorem test_witness_ResultIsWrittenByFiveCommandsOnSuccess :
    { st 0 0 0 [] with pending := [.regWrite 0x14#8 32 0xFFFFFFFF#32] }.pending =
      .regWrite 0x14#8 32 0xFFFFFFFF#32 :: [] := by decide

theorem test_witness_CommandsUseOnlyTheirOperands : Instr.checkCrc ≠ .init ∧ Instr.checkCrc ≠ .setLength ∧
    Instr.checkCrc ≠ .setCount ∧ Instr.checkCrc ≠ .updateCrc ∧ Instr.checkCrc ≠ .clearCrc := by decide

/-- CommandsWriteOnlyInsideFbFromBase: the byte below BASE, and the first past FB. -/
theorem test_witness_CommandsWriteOnlyInsideFbFromBase :
    2 < (st 3 0 3 frame16).base.toNat ∧ (st 3 0 3 frame16).cfg.fbCap ≤ 64 := by decide

/-- BytesOutsideTheFrameDoNotMatter: the byte below BASE, the first past the frame, and the first past the header of a
frame that is too short. -/
theorem test_witness_BytesOutsideTheFrameDoNotMatter :
    2 < (st 3 0 3 frame16).base.toNat ∧
    ((st 3 0 3 frame16).base.toNat + 8 ≤ 19 ∧ (st 3 0 3 frame16).base.toNat + (st 3 0 3 frame16).storedLen ≤ 19) ∧
    ((st 0 0 4 [0x00, 0x00, 0x00, 0x01]).base.toNat + 8 ≤ 8 ∧
      (st 0 0 4 [0x00, 0x00, 0x00, 0x01]).base.toNat + (st 0 0 4 [0x00, 0x00, 0x00, 0x01]).storedLen ≤ 8) := by
  decide +kernel

/-- StepKeepsTheInvariant: a state of a frame, and a step of it that writes FB. -/
theorem test_witness_StepKeepsTheInvariant :
    { st 0 0 0 frame16 with pending := [cmdAction .updateCrc] }.Inv ∧
    ∃ t, step { st 0 0 0 frame16 with pending := [cmdAction .updateCrc] } = .next t :=
  ⟨⟨by decide, by decide, by decide⟩, ⟨_, rfl⟩⟩

theorem test_witness_CrcFollowsTheStatedIteration : 31 < 32 ∧ 0 < 4 := by decide

theorem test_witness_CrcIsLinear : ([0x01, 0x02] : List Byte).length = ([0x03, 0x04] : List Byte).length := by decide

/-- BitReversalIsTheFourStages, CrcDetectsEverySingleBitError: the top bit index of a word and of a byte. -/
theorem test_witness_BitIndices : 31 < 32 ∧ 7 < 8 := by decide

/-- UpdatedFrameChecksOk, BodyBitFlipIsDetected: bit 7 of the last body byte of a frame whose CRC is not the sentinel. -/
theorem test_witness_BodyBitFlipIsDetected :
    (st 0 0 0 frame16).ro = false ∧ (st 0 0 0 frame16).base.toNat + 8 ≤ (st 0 0 0 frame16).cfg.fbCap ∧
    12 ≤ (st 0 0 0 frame16).storedLen ∧
    (st 0 0 0 frame16).base.toNat + (st 0 0 0 frame16).storedLen ≤ (st 0 0 0 frame16).cfg.fbCap ∧
    3 < (st 0 0 0 frame16).storedLen - 12 ∧ 7 < 8 ∧ (st 0 0 0 frame16).frameCrc ≠ (st 0 0 0 frame16).cfg.nocrc := by
  decide +kernel

/-- CrcEqualToSentinelReadsAsNoCrc: a machine whose sentinel is 0, and a body of zeros. -/
theorem test_witness_CrcEqualToSentinelReadsAsNoCrc :
    let s := { st 0 0 0 ([0x56, 0x52, 0x4C, 0x50, 0x00, 0x00, 0x00, 0x04, 0x00, 0x00, 0x00, 0x00] : List Byte) with
      cfg := { cfg64 with nocrc := 0x00000000#32 } }
    s.ro = false ∧ s.base.toNat + 8 ≤ s.cfg.fbCap ∧ 12 ≤ s.storedLen ∧ s.base.toNat + s.storedLen ≤ s.cfg.fbCap ∧
      3 < s.storedLen - 12 ∧ s.frameCrc = s.cfg.nocrc := by decide +kernel

/-- SetLengthIsReflectedByGetLength: a frame that grows to all of FB. -/
theorem test_witness_SetLengthIsReflectedByGetLength :
    (st 0 64 0 frame12).ro = false ∧ (st 0 64 0 frame12).arg.toNat % 4 = 0 ∧ 12 ≤ (st 0 64 0 frame12).arg.toNat ∧
    (st 0 64 0 frame12).arg.toNat ≤ 0x3FFFFC ∧
    (st 0 64 0 frame12).base.toNat + (st 0 64 0 frame12).arg.toNat ≤ (st 0 64 0 frame12).cfg.fbCap := by decide

theorem test_witness_InitFrameValidates :
    (st 52 0 0 []).ro = false ∧ (st 52 0 0 []).base.toNat + 12 ≤ (st 52 0 0 []).cfg.fbCap := by decide

end Sys2Proof.Tests
end

section
/-! The words of the commands: decoding and encoding are each other's inverse (spec/30_encoding.md R73). -/

namespace Sys2Proof

/-- A command's word decodes to it. -/
theorem decode_encode (i : Instr) : decode (encode i) = .ok i := by cases i <;> decide

/-- A word decodes to a command only if it is that command's word. -/
theorem eq_encode_of_decode {v : Word} {i : Instr} (h : decode v = .ok i) : v = encode i := by
  obtain ⟨hreserved, hstrict, hop⟩ := fields_of_decode_ok h
  rw [eq_setWidth_of_fields hreserved hstrict, hop, encode]

/-- Two commands have two words. -/
theorem encode_injective : Function.Injective encode := fun i j h => by
  simpa [decode_encode] using congrArg decode h

end Sys2Proof
end

section
/-! The register port and the reports of the commands: what a write to a register leaves, what a read answers, and what
each command leaves in STATUS and RESULT. -/

namespace Sys2Proof.Machine

/-! ## Register accesses -/

/-- A 32-bit write to a register is taken and has the register's effect. -/
theorem step_regWrite (r : Reg) {s : State} {v : Word} {rest : List HostAction}
    (h : s.pending = .regWrite r.offset 32 v :: rest) :
    step s = writeReg { s with pending := rest, response := .done } r v := by
  rw [step_of_pending h]
  cases r <;> rfl

/-- A 32-bit read of a register answers its value and changes nothing of the block. -/
theorem step_regRead (r : Reg) {s : State} {rest : List HostAction}
    (h : s.pending = .regRead r.offset 32 :: rest) :
    step s = .next { s with pending := rest, response := .word (readReg s r) } := by
  rw [step_of_pending h]
  cases r <;> rfl

/-! ## Commands that end in an error -/

/-- R24: with RO = 1 a mutating command ends in ERR_READ_ONLY, whatever else holds. -/
theorem exec_mutating_of_ro {i : Instr} {s : State} (hro : s.ro = true) (hi : i.mutating = true) :
    exec i s = .next (raiseCmdError .readOnly s) := by
  cases i <;> simp only [Instr.mutating, Bool.false_eq_true] at hi
  case init => rw [exec_init, if_pos hro]
  case setLength => rw [exec_setLength, if_pos hro]
  case setCount => rw [exec_setCount, if_pos hro]
  case updateCrc => rw [exec_updateCrc, if_pos hro]
  case clearCrc => rw [exec_clearCrc, if_pos hro]

/-- R25: a BASE past the end of FB fails every command but NOP. -/
theorem exec_raises_of_fbCap_lt_base {i : Instr} {s : State} (hb : s.cfg.fbCap < s.base.toNat) (hi : i ≠ .nop) :
    ∃ e, exec i s = .next (raiseCmdError e s) := by
  have hout (n : Nat) : s.cfg.fbCap < s.base.toNat + n := by omega
  cases i
  case nop => exact absurd rfl hi
  all_goals
    simp only [exec_init, exec_isVrl, exec_getLength, exec_setLength, exec_getCount, exec_setCount, exec_computeCrc,
      exec_updateCrc, exec_checkCrc, exec_clearCrc, exec_validate, hout, if_true]
  case isVrl | getLength | getCount | computeCrc | checkCrc | validate => exact ⟨_, rfl⟩
  all_goals split_ifs <;> exact ⟨_, rfl⟩

/-- An error code is not OK (R180). -/
@[simp] theorem CmdError.code_ne_ok (e : CmdError) : e.code ≠ 0x00#8 := by cases e <;> decide

theorem CmdError.code_le (e : CmdError) : e.code.toNat ≤ 5 := by cases e <;> decide

/-! ## What a command reports -/

/-- The result fields that a successful command lists (R102, R142, R161). -/
def reportedFlags (i : Instr) (s : State) : ResultFlags :=
  match i with
  | .isVrl => { isvrl := s.word0 == s.cfg.faw }
  | .checkCrc => { nocrc := s.trailer == s.cfg.nocrc, crcok := s.trailer == s.cfg.nocrc || s.trailer == s.frameCrc }
  | .validate => { valid := validateReason s == .valid, reason := (validateReason s).code }
  | _ => {}

/-- RESULT after a successful command (R29). -/
def reportedResult (i : Instr) (s : State) : Word :=
  match i with
  | .getLength => BitVec.ofNat 32 s.storedLen
  | .getCount => (headerCount s.word1).setWidth 32
  | .computeCrc | .updateCrc | .checkCrc => s.frameCrc
  | _ => s.result

/-- All that a command can report: an error, with RESULT as it was, or success, with its result fields alone in STATUS
and its value in RESULT. -/
theorem exec_reports (i : Instr) (s : State) :
    (∃ e, exec i s = .next (raiseCmdError e s)) ∨
      ∃ t, exec i s = .next t ∧ t.status = packStatus 0x00#8 (reportedFlags i s) ∧ t.result = reportedResult i s := by
  cases i
  case nop => exact .inr ⟨_, rfl, rfl, rfl⟩
  case getLength =>
    rw [exec_getLength]
    split
    · exact .inl ⟨_, rfl⟩
    · exact .inr ⟨_, rfl, rfl, rfl⟩
  all_goals
    simp only [exec, execInit, execIsVrl, execSetLength, execGetCount, execSetCount, execComputeCrc, execUpdateCrc,
      execCheckCrc, execClearCrc, execValidate]
    rcases conclude_cases _ _ _ with ⟨e, -, -, h⟩ | ⟨-, h⟩
    · exact .inl ⟨e, by rw [h]⟩
    · exact .inr ⟨_, rfl, by simp only [h, finish_status, reportedFlags], by rw [h]; simp [reportedResult]⟩

/-- No command reads STATUS, and each overwrites all of it. -/
theorem exec_with_status (i : Instr) (s : State) (x : Word) : exec i { s with status := x } = exec i s := by
  cases i <;> rfl

/-- A command word that ends in an error leaves RESULT; one that does not is a command's own word, and reports what the
command does. -/
theorem issueCommand_reports (v : Word) (s : State) :
    (∃ e, issueCommand v s = .next (raiseCmdError e s)) ∨
      ∃ i t, v = encode i ∧ issueCommand v s = .next t ∧
        t.status = packStatus 0x00#8 (reportedFlags i s) ∧ t.result = reportedResult i s := by
  obtain ⟨i, hi, hv⟩ | ⟨-, hv⟩ := issueCommand_cases v s
  · rw [hv]
    obtain he | ⟨t, ht, hstatus, hresult⟩ := exec_reports i s
    · exact .inl he
    · exact .inr ⟨i, t, eq_encode_of_decode hi, ht, hstatus, hresult⟩
  · exact .inl ⟨.illegal, hv⟩

/-- No command word reads STATUS. -/
theorem issueCommand_with_status (v x : Word) (s : State) :
    issueCommand v { s with status := x } = issueCommand v s := by
  unfold issueCommand
  cases decode v with
  | ok i => exact exec_with_status i s x
  | error _ => rfl

/-! Which command lists which result field (R28). -/

theorem reportedFlags_isvrl {i : Instr} {s : State} :
    (reportedFlags i s).isvrl = true ↔ i = .isVrl ∧ s.word0 = s.cfg.faw := by
  cases i <;> simp [reportedFlags]

theorem reportedFlags_crcok {i : Instr} {s : State} :
    (reportedFlags i s).crcok = true ↔ i = .checkCrc ∧ (s.trailer = s.cfg.nocrc ∨ s.trailer = s.frameCrc) := by
  cases i <;> simp [reportedFlags]

theorem reportedFlags_nocrc {i : Instr} {s : State} :
    (reportedFlags i s).nocrc = true ↔ i = .checkCrc ∧ s.trailer = s.cfg.nocrc := by
  cases i <;> simp [reportedFlags]

/-- REASON is 0 exactly on VALID. -/
theorem Reason.code_eq_zero_iff {r : Reason} : r.code = 0#4 ↔ r = .valid := by cases r <;> decide

theorem Reason.code_le (r : Reason) : r.code.toNat ≤ 5 := by cases r <;> decide

theorem reportedFlags_valid {i : Instr} {s : State} :
    (reportedFlags i s).valid = true ↔ i = .validate ∧ (reportedFlags i s).reason = 0#4 := by
  cases i <;> simp [reportedFlags, Reason.code_eq_zero_iff]

theorem reportedFlags_reason_eq_zero {i : Instr} {s : State} (h : i ≠ .validate) :
    (reportedFlags i s).reason = 0#4 := by
  cases i
  case validate => exact absurd rfl h
  all_goals rfl

theorem reportedFlags_reason_le (i : Instr) (s : State) : (reportedFlags i s).reason.toNat ≤ 5 := by
  by_cases h : i = .validate
  · subst h; exact Reason.code_le _
  · simp [reportedFlags_reason_eq_zero h]

/-- The flags of a packed STATUS, each at its bit (R28). -/
theorem getLsbD_packStatus (e : BitVec 8) (f : ResultFlags) :
    (packStatus e f).getLsbD 8 = f.isvrl ∧ (packStatus e f).getLsbD 9 = f.crcok ∧
    (packStatus e f).getLsbD 10 = f.nocrc ∧ (packStatus e f).getLsbD 11 = f.valid :=
  ⟨statusIsVrl_packStatus e f, statusCrcOk_packStatus e f, statusNoCrc_packStatus e f, statusValid_packStatus e f⟩

end Sys2Proof.Machine
end

section
/-! The statements on the registers BASE, STATUS, RESULT and CTRL (spec/10_state.md R24, R25, R28, R29). -/

namespace Sys2Proof.Machine

/-- Settles O8: a BASE past the end of FB fails the bounds check of each command, unless an earlier check fails it. -/
theorem baseStoresAnyValue : Obligations.BaseStoresAnyValue := by
  refine ⟨fun s v rest h => ⟨_, step_regWrite .base h, rfl, fun more hread => step_regRead .base hread⟩,
    fun i s hbase hi => ?_⟩
  obtain ⟨e, he⟩ := exec_raises_of_fbCap_lt_base hbase hi
  exact ⟨_, he, by simp⟩

/-- Settles O35, from what each command reports in STATUS. -/
theorem statusIsRewrittenByEveryCommand : Obligations.StatusIsRewrittenByEveryCommand := by
  refine ⟨rfl, fun s v rest h => step_regWrite .status h, fun v x s => issueCommand_with_status v x s, fun v s => ?_⟩
  obtain ⟨e, he⟩ | ⟨i, t, rfl, ht, hstatus, -⟩ := issueCommand_reports v s
  · refine ⟨_, he, ?_⟩
    simp only [raiseCmdError_status, getLsbD_packStatus, statusErr_packStatus, statusReason_packStatus,
      packStatus_reserved]
    simp [e.code_le]
  · have hword (j : Instr) : encode i = encode j ↔ i = j := encode_injective.eq_iff
    refine ⟨t, ht, ?_⟩
    rw [hstatus]
    simp only [getLsbD_packStatus, statusErr_packStatus, statusReason_packStatus, packStatus_reserved, true_and, and_true]
    exact ⟨reportedFlags_isvrl.trans (and_congr_left' (hword .isVrl).symm),
      reportedFlags_crcok.trans (and_congr_left' (hword .checkCrc).symm),
      reportedFlags_nocrc.trans (and_congr_left' (hword .checkCrc).symm),
      reportedFlags_valid.trans (and_congr_left' (hword .validate).symm),
      fun h => (hword .validate).mpr (not_imp_comm.mp reportedFlags_reason_eq_zero h),
      reportedFlags_reason_le i s, by decide⟩

/-- Settles O36, from what each command reports in RESULT. -/
theorem resultIsWrittenByFiveCommandsOnSuccess : Obligations.ResultIsWrittenByFiveCommandsOnSuccess := by
  refine ⟨fun s v rest h => step_regWrite .result h, fun v s => ?_, fun i s => ?_⟩
  · obtain ⟨e, he⟩ | ⟨i, t, -, ht, hstatus, -⟩ := issueCommand_reports v s
    · exact ⟨_, he, fun _ => rfl⟩
    · exact ⟨t, ht, fun herr => absurd (by rw [hstatus, statusErr_packStatus]) herr⟩
  · obtain ⟨e, he⟩ | ⟨t, ht, -, hresult⟩ := exec_reports i s
    · exact ⟨_, he, fun hok => absurd hok (by simp)⟩
    · refine ⟨t, ht, fun _ => hresult.trans ?_⟩
      cases i <;> rfl

/-- Settles O10: RO is the first check of each of the five mutating commands, and the host port does not read it. -/
theorem ctrlHoldsTheReadOnlyFlag : Obligations.CtrlHoldsTheReadOnlyFlag := by
  refine ⟨rfl, fun s v rest h => ⟨_, step_regWrite .ctrl h, rfl, fun more hread => ?_⟩, fun s i hro hi => ?_,
    fun s i b hib => ?_⟩
  · rw [step_regRead .ctrl hread, readReg, BitVec.and_one_eq_setWidth_ofBool_getLsbD]
  · have hmut : i.mutating = true := by
      rcases hi with rfl | rfl | rfl | rfl | rfl <;> rfl
    rw [exec_mutating_of_ro hro hmut, raiseCmdError_eq]
    rfl
  · exact ⟨_, if_pos hib, fbByte_setFbByte_same s i b⟩

end Sys2Proof.Machine
end

section
/-! The host's accesses to the two spaces: the bus error of an access the block does not decode, the answer of a
register access by its offset, and the answer of an FB access (spec/20_memory.md R54, R55). -/

namespace Sys2Proof.Machine

/-! ## Accesses that the block does not decode (R187) -/

/-- An access that the block does not decode gets the bus error. -/
theorem serve_of_not_decoded {a : HostAction} {s : State} (h : actionDecoded s.cfg a = false) :
    serve a s = .fault .busError := by
  obtain ⟨-, hfault⟩ | ⟨hdecoded, -⟩ := serve_cases a s
  · exact hfault
  · exact absurd (hdecoded.symm.trans h) (by decide)

/-- The step of such an access faults, and the run goes on with the access taken, the bus error answered and the block
unchanged. -/
theorem step_of_not_decoded {a : HostAction} {s : State} {rest : List HostAction} (hp : s.pending = a :: rest)
    (h : actionDecoded s.cfg a = false) :
    step s = .fault .busError ∧ stepOn s = .next { s with pending := rest, response := .busError } := by
  have hfault : step s = .fault .busError := by rw [step_of_pending hp]; exact serve_of_not_decoded h
  have hafter : s.afterBusError = { s with pending := rest, response := .busError } := by
    rw [State.afterBusError, hp, List.tail_cons]
  exact ⟨hfault, hafter ▸ stepOn_of_fault hfault⟩

/-! ## Register accesses by offset -/

/-- R55: the block decodes a register access exactly where it is aligned and 32 bits wide. -/
theorem regAccessOk_eq_false {off : BitVec 8} {width : Nat} :
    regAccessOk off width = false ↔ off.toNat % 4 ≠ 0 ∨ width ≠ 32 := by
  rw [regAccessOk, Bool.and_eq_false_iff, decide_eq_false_iff_not, decide_eq_false_iff_not]

theorem regAccessOk_of_aligned {off : BitVec 8} (h : off.toNat % 4 = 0) : regAccessOk off 32 = true := by
  rw [regAccessOk, decide_eq_true h]; rfl

/-- No register stands at offset 0x18 or above (R23). -/
theorem regAt_of_reserved {off : BitVec 8} (h : 0x18 ≤ off.toNat) : regAt off = none := by
  have hne (x : BitVec 8) (hx : x.toNat < 0x18) : off ≠ x := by rintro rfl; omega
  simp [regAt, hne]

/-- An aligned 32-bit read answers the value at its offset and changes nothing of the block. -/
theorem step_regRead_aligned {s : State} {off : BitVec 8} {rest : List HostAction} (halign : off.toNat % 4 = 0)
    (hp : s.pending = .regRead off 32 :: rest) :
    step s = .next { s with pending := rest, response := .word (readRegAt s off) } := by
  rw [step_of_pending hp, serve, if_pos (regAccessOk_of_aligned halign)]
  rfl

/-- An aligned 32-bit write has the effect that a write at its offset has. -/
theorem step_regWrite_aligned {s : State} {off : BitVec 8} {v : Word} {rest : List HostAction}
    (halign : off.toNat % 4 = 0) (hp : s.pending = .regWrite off 32 v :: rest) :
    step s = writeRegAt { s with pending := rest, response := .done } off v := by
  rw [step_of_pending hp, serve, if_pos (regAccessOk_of_aligned halign)]
  rfl

theorem readRegAt_of_reserved (s : State) {off : BitVec 8} (h : 0x18 ≤ off.toNat) :
    readRegAt s off = 0x00000000#32 := by rw [readRegAt, regAt_of_reserved h]

theorem writeRegAt_of_reserved (s : State) {off : BitVec 8} (v : Word) (h : 0x18 ≤ off.toNat) :
    writeRegAt s off v = .next s := by rw [writeRegAt, regAt_of_reserved h]

/-! ## FB accesses -/

/-- R54: the block decodes no FB access at FB_CAP or above. -/
theorem actionDecoded_fb_eq_false {c : Config} {i : Nat} (h : c.fbCap ≤ i) :
    actionDecoded c (.fbRead i) = false ∧ ∀ b, actionDecoded c (.fbWrite i b) = false :=
  ⟨decide_eq_false h.not_gt, fun _ => decide_eq_false h.not_gt⟩

/-- A read below FB_CAP answers the byte and changes nothing of the block. -/
theorem step_fbRead {s : State} {i : Nat} {rest : List HostAction} (hi : i < s.cfg.fbCap)
    (hp : s.pending = .fbRead i :: rest) :
    step s = .next { s with pending := rest, response := .byte (s.fbByte i) } := by
  rw [step_of_pending hp, serve, if_pos hi]
  rfl

/-- A write below FB_CAP stores the byte. -/
theorem step_fbWrite {s : State} {i : Nat} {b : Byte} {rest : List HostAction} (hi : i < s.cfg.fbCap)
    (hp : s.pending = .fbWrite i b :: rest) :
    step s = .next { s.setFbByte i b with pending := rest, response := .done } := by
  rw [step_of_pending hp, serve, if_pos hi]
  rfl

end Sys2Proof.Machine
end

section
/-! The statements on the host's accesses to the register space and to FB (spec/20_memory.md R54, R55). -/

namespace Sys2Proof.Machine

/-- Settles O11: the block decodes no access that is misaligned or of another width, and a reserved offset
holds no register. -/
theorem registerAccessWidthAndAlignment : Obligations.RegisterAccessWidthAndAlignment := by
  refine ⟨fun s off width rest hbad hp => step_of_not_decoded hp (regAccessOk_eq_false.mpr hbad),
    fun s off width v rest hbad hp => step_of_not_decoded hp (regAccessOk_eq_false.mpr hbad),
    fun s off rest halign hres hp => ?_, fun s off v rest halign hres hp => ?_⟩
  · rw [step_regRead_aligned halign hp, readRegAt_of_reserved s hres]
  · rw [step_regWrite_aligned halign hp, writeRegAt_of_reserved _ v hres]

/-- Settles O12, from the rules of a byte read and a byte write; past FB the block decodes no access. -/
theorem fbIsReadAndWrittenByteByByte : Obligations.FbIsReadAndWrittenByteByByte := by
  refine ⟨fun s i rest hi hp => step_fbRead hi hp, fun s i b rest hi hp => ⟨_, step_fbWrite hi hp, rfl, ?_, ?_⟩,
    fun s i rest hi hp => step_of_not_decoded hp (actionDecoded_fb_eq_false hi).1,
    fun s i b rest hi hp => step_of_not_decoded hp ((actionDecoded_fb_eq_false hi).2 b)⟩
  · exact fbByte_setFbByte_same s i b
  · exact fun a ha => fbByte_setFbByte_ne s b ha

end Sys2Proof.Machine
end

section
/-! The illegal command words: which words the decoder refuses, and what issuing one leaves (spec/30_encoding.md R72,
R74). -/

namespace Sys2Proof

/-- R72, R74: the decoder refuses a word exactly when S = 1, a bit of RSV is set or OP is outside the map. -/
theorem decode_eq_error_iff {v : Word} :
    (∃ e, decode v = .error e) ↔ cmdStrict v = true ∨ cmdReserved v ≠ 0#23 ∨ 0x0C ≤ (cmdOp v).toNat := by
  rw [← opcodeInstr_eq_none_iff]
  by_cases hreserved : cmdReserved v = 0#23
  · cases hstrict : cmdStrict v
    · cases hop : opcodeInstr (cmdOp v) <;> simp [decode, hreserved, hstrict, hop]
    · simp [decode, hreserved, hstrict]
  · simp [decode, hreserved]

namespace Machine

/-- Issuing a word that the decoder refuses raises ERR_ILLEGAL. -/
theorem issueCommand_of_decode_error {v : Word} (h : ∃ e, decode v = .error e) (s : State) :
    issueCommand v s = .next (raiseCmdError .illegal s) := by
  obtain ⟨e, he⟩ := h
  rw [issueCommand, he]

/-- Settles O3, from the words that the decoder refuses and from what a raised error leaves. -/
theorem illegalWordsReportErrIllegal : Obligations.IllegalWordsReportErrIllegal := by
  refine ⟨fun v => decode_eq_error_iff, fun v s rest hillegal hp => ?_⟩
  have hrefused : ∃ e, decode v = .error e := decode_eq_error_iff.mpr hillegal
  rw [step_regWrite .cmd hp, writeReg, issueCommand_of_decode_error hrefused, raiseCmdError_eq]
  rfl

end Machine

end Sys2Proof
end

section
/-! The rules of the header codec: what a command leaves in STATUS as a written-out word, the numbers that header word 1
holds (spec/30_encoding.md R77), and FB after a header word and a trailer are written. -/

namespace Sys2Proof.Machine

/-! ## STATUS as a word (R28, R180) -/

theorem raiseCmdError_readOnly_eq (s : State) : raiseCmdError .readOnly s = { s with status := 0x00000002#32 } :=
  raiseCmdError_eq .readOnly s

theorem raiseCmdError_bounds_eq (s : State) : raiseCmdError .bounds s = { s with status := 0x00000003#32 } :=
  raiseCmdError_eq .bounds s

theorem raiseCmdError_arg_eq (s : State) : raiseCmdError .arg s = { s with status := 0x00000004#32 } :=
  raiseCmdError_eq .arg s

theorem raiseCmdError_malformed_eq (s : State) : raiseCmdError .malformed s = { s with status := 0x00000005#32 } :=
  raiseCmdError_eq .malformed s

theorem finish_ok (s : State) : finish {} s = { s with status := 0x00000000#32 } := by
  rw [finish, packStatus_ok]

/-- R24: a mutating command on a read-only frame leaves STATUS = 2 and nothing else. -/
theorem exec_status_of_ro {i : Instr} {s : State} (hi : i.mutating = true) (hro : s.ro = true) :
    exec i s = .next { s with status := 0x00000002#32 } := by
  rw [exec_mutating_of_ro hro hi, raiseCmdError_readOnly_eq]

/-! ## Header word 1 as numbers (R77, R78) -/

theorem toNat_headerCount (w1 : Word) : (headerCount w1).toNat = w1.toNat / 2 ^ 20 := by
  have hlt : w1.toNat / 2 ^ 20 < 2 ^ 12 := Nat.div_lt_of_lt_mul w1.isLt
  rw [headerCount, BitVec.extractLsb'_toNat, Nat.shiftRight_eq_div_pow, Nat.mod_eq_of_lt hlt]

theorem headerLength_eq (w1 : Word) : headerLength w1 = w1.toNat % 2 ^ 20 * 4 := by
  rw [headerLength, headerLenWords, BitVec.extractLsb'_toNat, Nat.shiftRight_zero]

/-- A legal length reads back from the header it is packed into. -/
theorem headerLength_packHeader (c : BitVec 12) {n : Nat} (hmod : n % 4 = 0) (hmax : n ≤ Config.maxFrameLength) :
    headerLength (packHeader c (BitVec.ofNat 20 (n / 4))) = n := by
  have hlt : n / 4 < 2 ^ 20 := by simp only [Config.maxFrameLength] at hmax; omega
  rw [headerLength, headerLenWords_packHeader, BitVec.toNat_ofNat, Nat.mod_eq_of_lt hlt]
  omega

/-- The low 12 bits of an argument of at most COUNT_MAX are all of it. -/
theorem toNat_count_of_arg {v : Word} (h : v.toNat ≤ Config.countMax) : (v.extractLsb' 0 12).toNat = v.toNat := by
  have hlt : v.toNat < 2 ^ 12 := Nat.lt_succ_of_le h
  rw [BitVec.extractLsb'_toNat, Nat.shiftRight_zero, Nat.mod_eq_of_lt hlt]

/-! ## FB after a header word and, behind it, a trailer are written -/

/-- What SET_LENGTH and SET_COUNT leave, with header word 1 at `h` and the trailer at `a`. -/
theorem header_and_trailer_written {s t : State} {h a : Nat} {w1 trailer : Word} (ha : h + 4 ≤ a)
    (ht : t = finish {} ((s.setFbWord h w1).setFbWord a trailer)) :
    t = { s with status := 0x00000000#32, fb := t.fb } ∧ t.fbWord h = w1 ∧ t.fbWord a = trailer ∧
      ∀ x, x < h ∨ h + 4 ≤ x → x < a ∨ a + 4 ≤ x → t.fbByte x = s.fbByte x := by
  subst ht
  refine ⟨by apply State.eq_of_fields <;> simp, ?_, ?_, fun x hheader htrailer => ?_⟩
  · rw [fbWord_finish, fbWord_setFbWord_disjoint _ _ (.inl ha), fbWord_setFbWord_same]
  · rw [fbWord_finish, fbWord_setFbWord_same]
  · rw [fbByte_finish, fbByte_setFbWord_outside _ _ htrailer, fbByte_setFbWord_outside _ _ hheader]

/-- What INIT leaves, with its three words from `a` on. -/
theorem three_words_written {s t : State} {a : Nat} {w0 w1 w2 : Word}
    (ht : t = finish {} (((s.setFbWord a w0).setFbWord (a + 4) w1).setFbWord (a + 8) w2)) :
    t = { s with status := 0x00000000#32, fb := t.fb } ∧ t.fbWord a = w0 ∧ t.fbWord (a + 4) = w1 ∧
      t.fbWord (a + 8) = w2 ∧ ∀ x, x < a ∨ a + 12 ≤ x → t.fbByte x = s.fbByte x := by
  obtain ⟨hstate, hw1, hw2, hframe⟩ := header_and_trailer_written (Nat.le_refl (a + 8)) ht
  refine ⟨by simpa using hstate, ?_, hw1, hw2, fun x hx => ?_⟩
  · rw [ht, fbWord_finish, fbWord_setFbWord_disjoint _ _ (.inl (by omega)),
      fbWord_setFbWord_disjoint _ _ (.inl (by omega)), fbWord_setFbWord_same]
  · rw [hframe x (by omega) (by omega), fbByte_setFbWord_outside _ _ (by omega)]

end Sys2Proof.Machine
end

section
/-! The statements on the header codec's commands (spec/40_header_codec.md R101 to R106). Each goes through the
command's equation: which of its checks fails first, or what it leaves where none does. -/

namespace Sys2Proof.Machine

/-- Settles O21, from INIT's equation and the three words it writes. -/
theorem initWritesTheMinimalFrame : Obligations.InitWritesTheMinimalFrame := by
  refine ⟨decode_encode .init, fun s hro hfits => ⟨_, ?_, three_words_written rfl⟩, fun s => exec_status_of_ro rfl,
    fun s hro hout => ?_⟩
  · rw [exec_init, if_neg (ne_true_of_eq_false hro), if_neg (Nat.not_lt.mpr hfits)]
  · rw [exec_init, if_neg (ne_true_of_eq_false hro), if_pos hout, raiseCmdError_bounds_eq]

/-- Settles O22, from IS_VRL's equation: ISVRL is bit 8 of STATUS. -/
theorem isVrlTestsTheAlignmentWord : Obligations.IsVrlTestsTheAlignmentWord := by
  refine ⟨decode_encode .isVrl, fun s hfits => ?_, fun s hout => ?_⟩
  · rw [exec_isVrl, if_neg (Nat.not_lt.mpr hfits), finish, packStatus_isvrl]
    simp only [beq_iff_eq]
  · rw [exec_isVrl, if_pos hout, raiseCmdError_bounds_eq]

/-- Settles O23: a stored length is below 2^32, so RESULT holds all of it. -/
theorem getLengthAnswersTheStoredLength : Obligations.GetLengthAnswersTheStoredLength := by
  refine ⟨decode_encode .getLength, fun s hfits => ?_, fun s hout => ?_⟩
  · have hle : s.storedLen ≤ 0x3FFFFC := headerLength_le s.word1
    have hresult : (BitVec.ofNat 32 s.storedLen).toNat = s.storedLen := by
      rw [BitVec.toNat_ofNat, Nat.mod_eq_of_lt (by omega)]
    rw [exec_getLength, if_neg (Nat.not_lt.mpr hfits), finish_ok]
    refine ⟨_, rfl, rfl, ?_⟩
    simp only [setResult_result, hresult]
    exact ⟨headerLength_eq s.word1, headerLength_mod s.word1, hle⟩
  · rw [exec_getLength, if_pos hout, raiseCmdError_bounds_eq]

/-- Settles O24: the new trailer stands behind the header, so writing it keeps the header word. -/
theorem setLengthWritesLengthAndClearsTrailer : Obligations.SetLengthWritesLengthAndClearsTrailer := by
  refine ⟨decode_encode .setLength, fun s hro hmod hmin hmax hfits => ?_, fun s => exec_status_of_ro rfl,
    fun s hro hbad => ?_, fun s hro hmod hmax => ?_, fun s hro hmod hmin hmax hout => ?_⟩
  · obtain ⟨hstate, hheader, htrailer, hframe⟩ := header_and_trailer_written (s := s) (h := s.base.toNat + 4)
      (a := s.base.toNat + s.arg.toNat - 4) (by omega) rfl
    refine ⟨_, ?_, hstate, ?_, ?_, htrailer, fun x hx hx' => hframe x (by omega) (by omega)⟩
    · rw [exec_setLength, if_neg (ne_true_of_eq_false hro), if_neg (by omega), if_neg (by omega),
        if_neg (Nat.not_lt.mpr hfits)]
    · rw [hheader, headerCount_packHeader]; rfl
    · rw [hheader, headerLength_packHeader _ hmod hmax]
  · rw [exec_setLength, if_neg (ne_true_of_eq_false hro), if_pos hbad, raiseCmdError_arg_eq]
  · rw [exec_setLength, if_neg (ne_true_of_eq_false hro), if_neg (by omega), if_pos hmax, raiseCmdError_bounds_eq]
  · rw [exec_setLength, if_neg (ne_true_of_eq_false hro), if_neg (by omega), if_neg (by omega), if_pos hout,
      raiseCmdError_bounds_eq]

/-- Settles O25: the count is zero-extended into RESULT. -/
theorem getCountAnswersTheFrameCount : Obligations.GetCountAnswersTheFrameCount := by
  refine ⟨decode_encode .getCount, fun s hfits => ?_, fun s hout => ?_⟩
  · have hresult : ((headerCount s.word1).setWidth 32).toNat = (headerCount s.word1).toNat :=
      BitVec.toNat_setWidth_of_le (by decide)
    rw [exec_getCount, if_neg (Nat.not_lt.mpr hfits), finish_ok]
    refine ⟨_, rfl, rfl, ?_⟩
    simp only [setResult_result, hresult]
    exact ⟨toNat_headerCount s.word1, Nat.le_of_lt_succ (headerCount s.word1).isLt⟩
  · rw [exec_getCount, if_pos hout, raiseCmdError_bounds_eq]

/-- Settles O26: the trailer stands behind the header, and a count of at most 4095 fits its 12 bits. -/
theorem setCountWritesCountAndClearsTrailer : Obligations.SetCountWritesCountAndClearsTrailer := by
  refine ⟨decode_encode .setCount, fun s hro harg hfits hmin hlen => ?_, fun s => exec_status_of_ro rfl,
    fun s hro hbad => ?_, fun s hro harg hout => ?_, fun s hro harg hfits hbad => ?_⟩
  · obtain ⟨hstate, hheader, htrailer, hframe⟩ := header_and_trailer_written (s := s) (h := s.base.toNat + 4)
      (a := s.base.toNat + s.storedLen - 4) (by omega) rfl
    refine ⟨_, ?_, hstate, ?_, ?_, htrailer, fun x hx hx' => hframe x (by omega) (by omega)⟩
    · rw [exec_setCount, if_neg (ne_true_of_eq_false hro), if_neg (Nat.not_lt.mpr harg), if_neg (Nat.not_lt.mpr hfits),
        if_neg (by omega)]
      rfl
    · rw [hheader, headerCount_packHeader, toNat_count_of_arg harg]
    · rw [hheader, headerLenWords_packHeader]; rfl
  · rw [exec_setCount, if_neg (ne_true_of_eq_false hro), if_pos hbad, raiseCmdError_arg_eq]
  · rw [exec_setCount, if_neg (ne_true_of_eq_false hro), if_neg (Nat.not_lt.mpr harg), if_pos hout,
      raiseCmdError_bounds_eq]
  · rw [exec_setCount, if_neg (ne_true_of_eq_false hro), if_neg (Nat.not_lt.mpr harg), if_neg (Nat.not_lt.mpr hfits),
      if_pos hbad, raiseCmdError_malformed_eq]

end Sys2Proof.Machine
end

section
/-! The CRC function: the index of each bit through the four stages of the source's bit reversal, and the statements on
the iteration and on the reversal (spec/41_crc_engine.md R131 to R134). -/

namespace Sys2Proof.Machine

/-! ## One iteration -/

/-- R131: a bit of the shifted accumulator, with the polynomial's where the low bit differs from the data bit. -/
theorem getLsbD_crcBit (crc : Word) (d : Bool) (k : Nat) (hk : k < 32) :
    (crcBit crc d).getLsbD k =
      ((decide (k < 31) && crc.getLsbD (k + 1)) ^^ (Config.crcPoly.getLsbD k && (crc.getLsbD 0 ^^ d))) := by
  have hshift : (crc >>> 1).getLsbD k = (decide (k < 31) && crc.getLsbD (k + 1)) := by
    rw [BitVec.getLsbD_ushiftRight, Nat.add_comm]
    by_cases h : k < 31
    · simp [h]
    · simp [h, BitVec.getLsbD_of_ge crc (k + 1) (by omega)]
  have hmask (c : Bool) : (if c then 0xFFFFFFFF#32 else 0x00000000#32 : Word).getLsbD k = c := by
    cases c
    · simp
    · exact BitVec.getLsbD_allOnes.trans (decide_eq_true hk)
  rw [crcBit, BitVec.getLsbD_xor, BitVec.getLsbD_and, hshift, hmask]

/-- R133: a byte behind a string is one more octet. -/
theorem crcAcc_concat (xs : List Byte) (v : Byte) : crcAcc (xs ++ [v]) = crcOctet (crcAcc xs) v :=
  List.foldl_concat ..

/-- The byte at place `k` of an FB range. -/
theorem getElem?_fbBytes (s : State) (a : Nat) {n k : Nat} (h : k < n) :
    (s.fbBytes a n)[k]? = some (s.fbByte (a + k)) := by
  have hk : k < (s.fbBytes a n).length := by rwa [length_fbBytes]
  rw [List.getElem?_eq_getElem hk, getElem_fbBytes]

/-- Settles O43, from the bits of one iteration and the order in which octets are taken. -/
theorem crcFollowsTheStatedIteration : Obligations.CrcFollowsTheStatedIteration :=
  ⟨fun s a n => ⟨length_fbBytes s a n, fun _ hk => getElem?_fbBytes s a hk⟩, getLsbD_crcBit, fun _ _ => rfl, rfl,
    crcAcc_concat, fun _ => rfl⟩

/-! ## The four stages of the bit reversal

Each stage moves the bit at index `i ^^^ n` to index `i`, for n = 1, 2, 4 and 24; on the indices below 32 the four
together are `i ^^^ 31`, which is `31 - i`. -/

/-- A swap of neighbouring groups of `n` bits, `m` being the mask of the lower group of each pair. -/
def swapGroups (m : Word) (n : Nat) (x : Word) : Word := ((x >>> n) &&& m) ||| ((x &&& m) <<< n)

/-- The fourth stage: the byte order reversed. -/
def reverseBytes (x : Word) : Word :=
  (x <<< 24) ||| ((x &&& 0x0000FF00#32) <<< 8) ||| ((x >>> 8) &&& 0x0000FF00#32) ||| (x >>> 24)

theorem bitrev32Stages_eq (x : Word) :
    bitrev32Stages x =
      reverseBytes (swapGroups 0x0F0F0F0F#32 4 (swapGroups 0x33333333#32 2 (swapGroups 0x55555555#32 1 x))) := rfl

/-- The mask `m` holds the lower group of each pair of groups of `n` bits: an index in it has its partner `n` above, and
one outside it has its partner, which is in the mask, `n` below. -/
def IsLowerGroupMask (m : Word) (n : Nat) : Prop :=
  ∀ i < 32, (m.getLsbD i = true ∧ i ^^^ n = i + n ∧ (n ≤ i → m.getLsbD (i - n) = false)) ∨
    (m.getLsbD i = false ∧ i ^^^ n = i - n ∧ n ≤ i ∧ m.getLsbD (i - n) = true)

/-- A swap of groups moves each bit from its partner's index. -/
theorem getLsbD_swapGroups {m : Word} {n : Nat} (hm : IsLowerGroupMask m n) (x : Word) {i : Nat} (hi : i < 32) :
    (swapGroups m n x).getLsbD i = x.getLsbD (i ^^^ n) := by
  rw [swapGroups, BitVec.getLsbD_or, BitVec.getLsbD_and, BitVec.getLsbD_ushiftRight, BitVec.getLsbD_shiftLeft,
    BitVec.getLsbD_and]
  obtain ⟨hin, hpartner, hbelow⟩ | ⟨hout, hpartner, hle, hbelow⟩ := hm i hi
  · rw [hpartner, hin, Nat.add_comm n i]
    by_cases hle : n ≤ i
    · simp [hbelow hle]
    · simp [Nat.lt_of_not_le hle]
  · rw [hpartner, hout, hbelow]
    simp [hi, Nat.not_lt.mpr hle]

theorem isLowerGroupMask_bits : IsLowerGroupMask 0x55555555#32 1 := by unfold IsLowerGroupMask; decide
theorem isLowerGroupMask_pairs : IsLowerGroupMask 0x33333333#32 2 := by unfold IsLowerGroupMask; decide
theorem isLowerGroupMask_nibbles : IsLowerGroupMask 0x0F0F0F0F#32 4 := by unfold IsLowerGroupMask; decide

/-- The byte reversal moves each bit between the bytes 0 and 3, or 1 and 2. -/
theorem getLsbD_reverseBytes (x : Word) {i : Nat} (hi : i < 32) :
    (reverseBytes x).getLsbD i = x.getLsbD (i ^^^ 24) := by
  simp only [reverseBytes, BitVec.getLsbD_or, BitVec.getLsbD_and, BitVec.getLsbD_ushiftRight, BitVec.getLsbD_shiftLeft]
  interval_cases i <;> simp

theorem xor_lt_32 {i n : Nat} (hi : i < 32) (hn : n < 32) : i ^^^ n < 32 := Nat.xor_lt_two_pow (n := 5) hi hn

/-- The four moves together send index `i` to `31 - i`. -/
theorem xor_stages : ∀ i < 32, i ^^^ 24 ^^^ 4 ^^^ 2 ^^^ 1 = 31 - i := by decide

theorem getLsbD_bitrev32Stages (x : Word) {i : Nat} (hi : i < 32) :
    (bitrev32Stages x).getLsbD i = x.getLsbD (31 - i) := by
  have h24 : i ^^^ 24 < 32 := xor_lt_32 hi (by decide)
  have h4 : i ^^^ 24 ^^^ 4 < 32 := xor_lt_32 h24 (by decide)
  have h2 : i ^^^ 24 ^^^ 4 ^^^ 2 < 32 := xor_lt_32 h4 (by decide)
  rw [bitrev32Stages_eq, getLsbD_reverseBytes _ hi, getLsbD_swapGroups isLowerGroupMask_nibbles _ h24,
    getLsbD_swapGroups isLowerGroupMask_pairs _ h4, getLsbD_swapGroups isLowerGroupMask_bits _ h2, xor_stages i hi]

/-- R134: bit `i` of the reversal is bit `31 - i`. -/
theorem getLsbD_bitrev32 (x : Word) (i : Nat) (hi : i < 32) : (bitrev32 x).getLsbD i = x.getLsbD (31 - i) := by
  rw [bitrev32, BitVec.getLsbD_reverse, BitVec.getMsbD, decide_eq_true hi, Bool.true_and]

/-- Settles O44: the stages and the reversal have the same bits. -/
theorem bitReversalIsTheFourStages : Obligations.BitReversalIsTheFourStages := by
  refine ⟨getLsbD_bitrev32, fun x => BitVec.eq_of_getLsbD_eq fun i hi => ?_⟩
  rw [getLsbD_bitrev32Stages x hi, getLsbD_bitrev32 x i hi]

end Sys2Proof.Machine
end

section
/-! The rules of the trailer commands: their two common errors, what each leaves on a whole frame, and what keeps the
frame's header, and so its length (spec/41_crc_engine.md R140 to R144). -/

namespace Sys2Proof.Machine

/-! ## The errors of the trailer commands -/

/-- The commands of spec/41_crc_engine.md section 2. -/
def trailerCommands : List Instr := [.computeCrc, .updateCrc, .checkCrc, .clearCrc]

/-- A trailer command that RO does not stop runs the trailer's checks and nothing in front of them. -/
theorem exec_trailerCommand {i : Instr} {s : State} (hi : i ∈ trailerCommands)
    (hro : i.mutating = true → s.ro = false) :
    ∃ done, exec i s = .next (conclude (trailerChecks s) s done) := by
  simp only [trailerCommands, List.mem_cons, List.not_mem_nil, or_false] at hi
  rcases hi with rfl | rfl | rfl | rfl
  case inl | inr.inr.inl => exact ⟨_, rfl⟩
  all_goals
    simp only [exec, execUpdateCrc, execClearCrc, hro rfl, conclude_cons_false]
    exact ⟨_, rfl⟩

/-- A header that does not fit ends a trailer command in ERR_BOUNDS. -/
theorem exec_trailerCommand_of_header_out {i : Instr} {s : State} (hi : i ∈ trailerCommands)
    (hro : i.mutating = true → s.ro = false) (hout : s.cfg.fbCap < s.base.toNat + 8) :
    exec i s = .next { s with status := 0x00000003#32 } := by
  obtain ⟨done, hexec⟩ := exec_trailerCommand hi hro
  rw [hexec, conclude_trailerChecks, if_pos hout, raiseCmdError_bounds_eq]

/-- A bad stored length behind a header that fits ends a trailer command in ERR_MALFORMED. -/
theorem exec_trailerCommand_of_length_bad {i : Instr} {s : State} (hi : i ∈ trailerCommands)
    (hro : i.mutating = true → s.ro = false) (hfits : s.base.toNat + 8 ≤ s.cfg.fbCap)
    (hbad : s.storedLen < 12 ∨ s.cfg.fbCap < s.base.toNat + s.storedLen) :
    exec i s = .next { s with status := 0x00000005#32 } := by
  obtain ⟨done, hexec⟩ := exec_trailerCommand hi hro
  rw [hexec, conclude_trailerChecks, if_neg (Nat.not_lt.mpr hfits), if_pos hbad, raiseCmdError_malformed_eq]

/-! ## What each leaves on a whole frame -/

/-- A frame whose stored length is legal and fits passes the trailer's checks; its header then fits too. -/
theorem conclude_trailerChecks_of_ok {s : State} (hok : s.storedLenOk = true) (done : State) :
    conclude (trailerChecks s) s done = done := by
  obtain ⟨hmin, hlen⟩ := storedLenOk_iff.mp hok
  have hheader : s.headerFits 8 = true := headerFits_iff.mpr (by omega)
  simp [trailerChecks, hheader, hok]

theorem exec_computeCrc_of_ok {s : State} (hok : s.storedLenOk = true) :
    exec .computeCrc s = .next { s with status := 0x00000000#32, result := s.frameCrc } := by
  rw [exec, execComputeCrc, conclude_trailerChecks_of_ok hok, finish_ok, setResult]

theorem exec_updateCrc_of_ok {s : State} (hro : s.ro = false) (hok : s.storedLenOk = true) :
    exec .updateCrc s = .next (finish {} (setResult s.frameCrc (s.setFbWord s.trailerAddr s.frameCrc))) := by
  rw [exec, execUpdateCrc, hro, conclude_cons_false, conclude_trailerChecks_of_ok hok]

theorem exec_checkCrc_of_ok {s : State} (hok : s.storedLenOk = true) :
    exec .checkCrc s = .next { s with
      status := if s.trailer = s.cfg.nocrc then 0x00000600#32
        else if s.trailer = s.frameCrc then 0x00000200#32 else 0x00000000#32
      result := s.frameCrc } := by
  rw [exec, execCheckCrc, conclude_trailerChecks_of_ok hok, finish, packStatus_check, setResult]
  simp only [beq_iff_eq]

/-- R144: CHECK_CRC takes a trailer that is the sentinel for no CRC, whatever the body holds. -/
theorem exec_checkCrc_of_sentinel {s : State} (hok : s.storedLenOk = true) (hsentinel : s.trailer = s.cfg.nocrc) :
    exec .checkCrc s = .next { s with status := 0x00000600#32, result := s.frameCrc } := by
  rw [exec_checkCrc_of_ok hok, if_pos hsentinel]

theorem exec_clearCrc_of_ok {s : State} (hro : s.ro = false) (hok : s.storedLenOk = true) :
    exec .clearCrc s = .next (finish {} (s.setFbWord s.trailerAddr s.cfg.nocrc)) := by
  rw [exec, execClearCrc, hro, conclude_cons_false, conclude_trailerChecks_of_ok hok, clearTrailerAt]

/-- What a command leaves that writes one word to FB and a value to RESULT. -/
theorem word_and_result_written {s t : State} {a : Nat} {w r : Word}
    (ht : t = finish {} (setResult r (s.setFbWord a w))) :
    t = { s with status := 0x00000000#32, fb := t.fb, result := r } ∧ t.fbWord a = w ∧
      ∀ x, x < a ∨ a + 4 ≤ x → t.fbByte x = s.fbByte x := by
  subst ht
  refine ⟨by apply State.eq_of_fields <;> simp, ?_, fun x hx => ?_⟩
  · rw [fbWord_finish, fbWord_setResult, fbWord_setFbWord_same]
  · rw [fbByte_finish, fbByte_setResult, fbByte_setFbWord_outside _ _ hx]

/-! ## Updates that keep the header -/

/-- `t` has the parameters, BASE and header word 1 of `s`, and so a frame of the same length at the same place. -/
structure SameHeader (s t : State) : Prop where
  cfg : t.cfg = s.cfg
  base : t.base = s.base
  word1 : t.word1 = s.word1

namespace SameHeader

variable {s t : State}

theorem storedLen (h : SameHeader s t) : t.storedLen = s.storedLen := by
  rw [State.storedLen, h.word1, State.storedLen]

theorem storedLenOk (h : SameHeader s t) : t.storedLenOk = s.storedLenOk := by
  rw [State.storedLenOk, State.storedLenOk, State.baseOff, State.baseOff, h.storedLen, h.base, h.cfg]

theorem trailerAddr (h : SameHeader s t) : t.trailerAddr = s.trailerAddr := by
  rw [State.trailerAddr, State.trailerAddr, State.baseOff, State.baseOff, h.storedLen, h.base]

end SameHeader

/-- On a whole frame UPDATE_CRC keeps the header and puts the CRC into the trailer. -/
theorem exec_updateCrc_seals {s : State} (hro : s.ro = false) (hok : s.storedLenOk = true) :
    ∃ t, exec .updateCrc s = .next t ∧ SameHeader s t ∧ t.trailer = s.frameCrc := by
  have hbehind : s.baseOff + 4 + 4 ≤ s.trailerAddr := by
    obtain ⟨hmin, -⟩ := storedLenOk_iff.mp hok
    rw [State.trailerAddr]
    omega
  have hsame : SameHeader s (finish {} (setResult s.frameCrc (s.setFbWord s.trailerAddr s.frameCrc))) := by
    refine ⟨by simp, by simp, ?_⟩
    simp only [State.word1, State.baseOff, fbWord_finish, fbWord_setResult, finish_base, setResult_base, setFbWord_base]
    exact fbWord_setFbWord_disjoint s _ (.inl hbehind)
  refine ⟨_, exec_updateCrc_of_ok hro hok, hsame, ?_⟩
  rw [State.trailer, hsame.trailerAddr, fbWord_finish, fbWord_setResult, fbWord_setFbWord_same]

/-- A host's write between the header and the trailer keeps both. -/
theorem serve_fbWrite_body {s : State} {x : Nat} (b : Byte) (hok : s.storedLenOk = true) (hheader : s.baseOff + 8 ≤ x)
    (htrailer : x < s.trailerAddr) :
    ∃ m, serve (.fbWrite x b) s = .next m ∧ SameHeader s m ∧ m.trailer = s.trailer := by
  have hfits : x < s.cfg.fbCap := by
    obtain ⟨-, hlen⟩ := storedLenOk_iff.mp hok
    rw [State.trailerAddr] at htrailer
    omega
  have hsame : SameHeader s ((s.setFbByte x b).respond .done) :=
    ⟨rfl, rfl, fbWord_setFbByte_outside s b (.inr hheader)⟩
  refine ⟨_, if_pos hfits, hsame, ?_⟩
  rw [State.trailer, hsame.trailerAddr]
  exact fbWord_setFbByte_outside s b (.inl htrailer)

end Sys2Proof.Machine
end

section
/-! The statements on the trailer commands (spec/41_crc_engine.md R140 to R144). -/

namespace Sys2Proof.Machine

/-- Settles O27, from what COMPUTE_CRC leaves on a whole frame. -/
theorem computeCrcAnswersTheFrameCrc : Obligations.ComputeCrcAnswersTheFrameCrc :=
  ⟨decode_encode .computeCrc, fun _ _ hmin hlen => exec_computeCrc_of_ok (storedLenOk_iff.mpr ⟨hmin, hlen⟩),
    fun _ => exec_trailerCommand_of_header_out (by decide) nofun,
    fun _ => exec_trailerCommand_of_length_bad (by decide) nofun⟩

/-- Settles O28: the trailer is the one word that UPDATE_CRC writes. -/
theorem updateCrcSealsTheFrame : Obligations.UpdateCrcSealsTheFrame := by
  refine ⟨decode_encode .updateCrc, fun s hro _ hmin hlen => ?_, fun s => exec_status_of_ro rfl,
    fun s hro => exec_trailerCommand_of_header_out (by decide) fun _ => hro,
    fun s hro => exec_trailerCommand_of_length_bad (by decide) fun _ => hro⟩
  obtain ⟨hstate, htrailer, hframe⟩ :=
    word_and_result_written (s := s) (a := s.trailerAddr) (w := s.frameCrc) (r := s.frameCrc) rfl
  have haddr : s.trailerAddr = s.base.toNat + s.storedLen - 4 := rfl
  exact ⟨_, exec_updateCrc_of_ok hro (storedLenOk_iff.mpr ⟨hmin, hlen⟩), hstate, htrailer,
    fun x hx => hframe x (by omega)⟩

/-- Settles O29, from what CHECK_CRC leaves on a whole frame. -/
theorem checkCrcTestsTheTrailer : Obligations.CheckCrcTestsTheTrailer :=
  ⟨decode_encode .checkCrc, fun _ _ hmin hlen => exec_checkCrc_of_ok (storedLenOk_iff.mpr ⟨hmin, hlen⟩),
    fun _ => exec_trailerCommand_of_header_out (by decide) nofun,
    fun _ => exec_trailerCommand_of_length_bad (by decide) nofun⟩

/-- Settles O30: the trailer is the one word that CLEAR_CRC writes, and RESULT stays. -/
theorem clearCrcWritesTheSentinel : Obligations.ClearCrcWritesTheSentinel := by
  refine ⟨decode_encode .clearCrc, fun s hro _ hmin hlen => ?_, fun s => exec_status_of_ro rfl,
    fun s hro => exec_trailerCommand_of_header_out (by decide) fun _ => hro,
    fun s hro => exec_trailerCommand_of_length_bad (by decide) fun _ => hro⟩
  obtain ⟨hstate, htrailer, hframe⟩ :=
    word_and_result_written (s := s) (a := s.trailerAddr) (w := s.cfg.nocrc) (r := s.result) rfl
  have haddr : s.trailerAddr = s.base.toNat + s.storedLen - 4 := rfl
  exact ⟨_, exec_clearCrc_of_ok hro (storedLenOk_iff.mpr ⟨hmin, hlen⟩), hstate, htrailer,
    fun x hx => hframe x (by omega)⟩

/-- Settles O51: a host's write to the body reaches neither the header nor the trailer, which UPDATE_CRC has made the
sentinel, so CHECK_CRC finds the sentinel before and after it. -/
theorem crcEqualToSentinelReadsAsNoCrc : Obligations.CrcEqualToSentinelReadsAsNoCrc := by
  intro s k b hro _ hmin hlen hk hcrc
  have hok : s.storedLenOk = true := storedLenOk_iff.mpr ⟨hmin, hlen⟩
  have haddr : s.trailerAddr = s.base.toNat + s.storedLen - 4 := rfl
  obtain ⟨t, ht, hst, hsealed⟩ := exec_updateCrc_seals hro hok
  have hok_t : t.storedLenOk = true := hst.storedLenOk.trans hok
  have hsentinel_t : t.trailer = t.cfg.nocrc := by rw [hsealed, hcrc, hst.cfg]
  obtain ⟨m, hm, htm, hkept⟩ := serve_fbWrite_body (x := s.base.toNat + 8 + k) b hok_t
    (by rw [State.baseOff, hst.base]; omega) (by rw [hst.trailerAddr]; omega)
  have hsentinel_m : m.trailer = m.cfg.nocrc := by rw [hkept, hsentinel_t, htm.cfg]
  refine ⟨t, _, m, _, ht, ?_, exec_checkCrc_of_sentinel hok_t hsentinel_t, rfl, hm,
    exec_checkCrc_of_sentinel (htm.storedLenOk.trans hok_t) hsentinel_m, rfl⟩
  rw [← haddr, ← hst.trailerAddr, ← hst.cfg]
  exact hsentinel_t

end Sys2Proof.Machine
end

section
/-! NOP and VALIDATE (spec/42_control_and_validation.md R160 to R162): the words that share a command's OP, and
VALIDATE's STATUS as a written-out word for each finding. -/

namespace Sys2Proof

/-- R72, R73: of the words with a command's OP the decoder accepts the command's own alone. -/
theorem decode_error_of_opcode {v : Word} {i : Instr} (hop : cmdOp v = i.opcode) (hne : v ≠ encode i) :
    ∃ e, decode v = .error e := by
  cases hdecode : decode v with
  | error e => exact ⟨e, rfl⟩
  | ok j =>
    obtain ⟨hreserved, hstrict, -⟩ := fields_of_decode_ok hdecode
    have hword : v = encode i := by rw [eq_setWidth_of_fields hreserved hstrict, hop, encode]
    exact absurd hword hne

namespace Machine

theorem exec_nop (s : State) : exec .nop s = .next { s with status := 0x00000000#32 } := by
  rw [exec, execNop, finish_ok]

/-- Settles O20: the word 0 is NOP's own, and the only one of OP 0x00 that the decoder accepts. -/
theorem nopClearsStatusOnly : Obligations.NopClearsStatusOnly :=
  ⟨decode_encode .nop, fun _ => decode_error_of_opcode (i := .nop), exec_nop⟩

/-- STATUS as VALIDATE leaves it for each finding (R28, R162): bit 11 when the frame is valid, else the code from
bit 16 on. -/
def findingStatus : Reason → Word
  | .valid => 0x00000800#32
  | .noFaw => 0x00010000#32
  | .lenBelowMin => 0x00020000#32
  | .lenExceedsBuffer => 0x00030000#32
  | .lenMismatch => 0x00040000#32
  | .crcMismatch => 0x00050000#32

theorem packStatus_finding (r : Reason) :
    packStatus 0x00#8 { valid := r == .valid, reason := r.code } = findingStatus r := by
  rw [packStatus_validate]
  cases r <;> decide

/-- Where the header fits, VALIDATE ends in its finding. -/
theorem exec_validate_of_header_fits {s : State} (hfits : s.base.toNat + 8 ≤ s.cfg.fbCap) :
    exec .validate s = .next { s with status := findingStatus (validateReason s) } := by
  rw [exec_validate, if_neg (Nat.not_lt.mpr hfits), finish, packStatus_finding]

/-- Settles O31: `validateReason` tries the checks in R161's order, and each finding is turned into its STATUS word. -/
theorem validateReportsTheFirstFailingCheck : Obligations.ValidateReportsTheFirstFailingCheck := by
  refine ⟨decode_encode .validate, fun s hfits => ?_, fun s hout => ?_⟩
  · rw [exec_validate_of_header_fits hfits, validateReason]
    simp only [apply_ite findingStatus]
    rfl
  · rw [exec_validate, if_pos hout, raiseCmdError_bounds_eq]

end Machine

end Sys2Proof
end

section
/-! The host port's faults: which actions the block does not decode, and that a step faults on exactly those and
otherwise answers a next state (spec/60_exceptions.md R187). -/

namespace Sys2Proof.Machine

/-- R187: the block leaves undecoded the FB accesses at FB_CAP or above and the register accesses that are misaligned or
not 32 bits wide, and nothing else. -/
theorem actionDecoded_eq_false_iff {c : Config} {a : HostAction} :
    actionDecoded c a = false ↔
      (∃ i, c.fbCap ≤ i ∧ a = .fbRead i) ∨ (∃ i b, c.fbCap ≤ i ∧ a = .fbWrite i b) ∨
      (∃ off width, (off.toNat % 4 ≠ 0 ∨ width ≠ 32) ∧ a = .regRead off width) ∨
      (∃ off width v, (off.toNat % 4 ≠ 0 ∨ width ≠ 32) ∧ a = .regWrite off width v) := by
  cases a with
  | regRead off width => simp [actionDecoded, regAccessOk_eq_false]
  | regWrite off width v => simp [actionDecoded, regAccessOk_eq_false]
  | fbRead i => simp [actionDecoded]
  | fbWrite i b => simp [actionDecoded]
  | reset => simp [actionDecoded]

/-- Every register write that reaches its register answers a next state. -/
theorem writeRegAt_answers (s : State) (off : BitVec 8) (v : Word) : ∃ t, writeRegAt s off v = .next t := by
  obtain ⟨-, h⟩ | ⟨-, h⟩ | ⟨-, h⟩ | ⟨-, h⟩ | ⟨-, -, -, -, h⟩ := writeRegAt_cases s off v
  case inr.inr.inr.inl => rw [h]; exact issueCommand_answers v s
  all_goals exact ⟨_, h⟩

/-- An action that the block decodes is answered with a next state. -/
theorem serve_of_decoded {a : HostAction} {s : State} (h : actionDecoded s.cfg a = true) :
    ∃ t, serve a s = .next t := by
  obtain ⟨hbad, -⟩ | ⟨-, ⟨r, hr⟩ | ⟨off, width, v, -, hw⟩ | ⟨i, b, -, -, hb⟩ | ⟨-, hreset⟩⟩ := serve_cases a s
  · exact absurd (h.symm.trans hbad) (by decide)
  · exact ⟨_, hr⟩
  · rw [hw]; exact writeRegAt_answers _ off v
  · exact ⟨_, hb⟩
  · exact ⟨_, hreset⟩

/-- A step answers a next state, unless the host's next action is one that the block does not decode. -/
theorem step_answers_or_not_decoded (s : State) :
    (∃ t, step s = .next t) ∨ ∃ a rest, s.pending = a :: rest ∧ actionDecoded s.cfg a = false := by
  obtain ⟨-, hidle⟩ | ⟨a, rest, hp, hserve⟩ := step_cases s
  · exact .inl ⟨s, hidle⟩
  · cases hdecoded : actionDecoded s.cfg a with
    | false => exact .inr ⟨a, rest, hp, hdecoded⟩
    | true => rw [hserve]; exact .inl (serve_of_decoded hdecoded)

/-- A step that faults has met an action that the block does not decode. -/
theorem not_decoded_of_step_fault {s : State} (h : step s = .fault .busError) :
    ∃ a rest, s.pending = a :: rest ∧ actionDecoded s.cfg a = false := by
  obtain ⟨t, ht⟩ | hbad := step_answers_or_not_decoded s
  · rw [ht] at h; cases h
  · exact hbad

/-- Settles O13: a step faults exactly on the actions that the block does not decode, of which there are four forms. -/
theorem busErrorsAreTheOnlyFaults : Obligations.BusErrorsAreTheOnlyFaults := by
  refine ⟨fun s => ⟨fun hfault => ?_, ?_⟩, fun s => ?_, fun s => stepOn_of_fault⟩
  · obtain ⟨a, rest, hp, hbad⟩ := not_decoded_of_step_fault hfault
    refine ⟨rest, ?_⟩
    simp only [hp, List.cons.injEq, and_true]
    exact actionDecoded_eq_false_iff.mp hbad
  · rintro ⟨rest, ⟨i, hi, hp⟩ | ⟨i, b, hi, hp⟩ | ⟨off, width, hbad, hp⟩ | ⟨off, width, v, hbad, hp⟩⟩
    · exact (step_of_not_decoded hp (actionDecoded_fb_eq_false hi).1).1
    · exact (step_of_not_decoded hp ((actionDecoded_fb_eq_false hi).2 b)).1
    · exact (step_of_not_decoded hp (regAccessOk_eq_false.mpr hbad)).1
    · exact (step_of_not_decoded hp (regAccessOk_eq_false.mpr hbad)).1
  · obtain hnext | ⟨a, rest, hp, hbad⟩ := step_answers_or_not_decoded s
    · exact .inl hnext
    · exact .inr (step_of_not_decoded hp hbad).1

end Sys2Proof.Machine
end

section
/-! What a command's error leaves, and the exact cases of ERR_BOUNDS (spec/60_exceptions.md R181, R182). -/

namespace Sys2Proof.Machine

/-- Settles O32: a raised error writes STATUS alone, and what succeeds reports no error. -/
theorem errorsArePreciseAndAllOrNothing : Obligations.ErrorsArePreciseAndAllOrNothing := by
  intro v s
  obtain ⟨e, he⟩ | ⟨i, t, -, ht, hstatus, -⟩ := issueCommand_reports v s
  · refine ⟨_, he, fun _ => ?_⟩
    rw [raiseCmdError_status, statusErr_packStatus, raiseCmdError_eq]
  · exact ⟨t, ht, fun herr => absurd (by rw [hstatus, statusErr_packStatus]) herr⟩

/-! Whether a chain of checks ends in ERR_BOUNDS, one check at a time. -/

/-- A bounds check that fails reports ERR_BOUNDS; one that passes leaves the report to the checks behind it. -/
theorem errBounds_of_boundsCheck (p : Prop) [Decidable p] (s t : State) :
    statusErr (if p then raiseCmdError .bounds s else t).status = 0x03#8 ↔ p ∨ statusErr t.status = 0x03#8 := by
  by_cases h : p
  · rw [if_pos h, raiseCmdError_status, statusErr_packStatus]
    simp only [CmdError.code, h, true_or]
  · simp [h]

/-- A check for another error must pass before ERR_BOUNDS can be reported (R183). -/
theorem errBounds_of_otherCheck {e : CmdError} (he : e ≠ .bounds) (p : Prop) [Decidable p] (s t : State) :
    statusErr (if p then raiseCmdError e s else t).status = 0x03#8 ↔ ¬p ∧ statusErr t.status = 0x03#8 := by
  have hcode : e.code ≠ 0x03#8 := by
    cases e
    case bounds => exact absurd rfl he
    all_goals decide
  by_cases h : p
  · rw [if_pos h, raiseCmdError_status, statusErr_packStatus]
    simp only [hcode, h, not_true, false_and]
  · simp [h]

/-- A command that passes its checks does not report ERR_BOUNDS. -/
theorem statusErr_finish_ne_bounds (f : ResultFlags) (s : State) : statusErr (finish f s).status ≠ 0x03#8 := by
  rw [finish_status, statusErr_packStatus]
  decide

/-- A chain that is the header's bounds check alone. -/
theorem errBounds_of_headerCheck (n : Nat) (f : ResultFlags) (s t : State) :
    statusErr (if s.cfg.fbCap < s.base.toNat + n then raiseCmdError .bounds s else finish f t).status = 0x03#8 ↔
      s.cfg.fbCap < s.base.toNat + n := by
  simp only [errBounds_of_boundsCheck, statusErr_finish_ne_bounds, or_false]

/-- A chain that is the trailer's two checks: a bad stored length is another error. -/
theorem errBounds_of_trailerChecks (f : ResultFlags) (s t : State) :
    statusErr (if s.cfg.fbCap < s.base.toNat + 8 then raiseCmdError .bounds s
      else if s.storedLen < 12 ∨ s.cfg.fbCap < s.base.toNat + s.storedLen then raiseCmdError .malformed s
      else finish f t).status = 0x03#8 ↔ s.cfg.fbCap < s.base.toNat + 8 := by
  rw [errBounds_of_boundsCheck, errBounds_of_otherCheck (by decide)]
  simp only [statusErr_finish_ne_bounds, and_false, or_false]

/-- A chain with the check of CTRL.RO in front. -/
theorem errBounds_of_roCheck (s t : State) :
    statusErr (if s.ro = true then raiseCmdError .readOnly s else t).status = 0x03#8 ↔
      s.ro = false ∧ statusErr t.status = 0x03#8 := by
  rw [errBounds_of_otherCheck (by decide), Bool.not_eq_true]

/-- Settles O33, from each command's chain of checks. -/
theorem errBoundsIsRaisedExactly : Obligations.ErrBoundsIsRaisedExactly := by
  intro s
  refine ⟨_, _, _, _, _, _, _, _, _, _, _, _, ⟨rfl, statusErr_finish_ne_bounds {} s⟩, ⟨exec_init s, ?init⟩,
    ⟨exec_isVrl s, errBounds_of_headerCheck 4 ..⟩, ⟨exec_getLength s, errBounds_of_headerCheck 8 ..⟩,
    ⟨exec_setLength s, ?setLength⟩, ⟨exec_getCount s, errBounds_of_headerCheck 8 ..⟩, ⟨exec_setCount s, ?setCount⟩,
    ⟨exec_computeCrc s, errBounds_of_trailerChecks ..⟩, ⟨exec_updateCrc s, ?updateCrc⟩,
    ⟨exec_checkCrc s, errBounds_of_trailerChecks ..⟩, ⟨exec_clearCrc s, ?clearCrc⟩,
    ⟨exec_validate s, errBounds_of_headerCheck 8 ..⟩⟩
  case init => rw [errBounds_of_roCheck, errBounds_of_headerCheck]
  case setLength =>
    rw [errBounds_of_roCheck, errBounds_of_otherCheck (by decide), errBounds_of_boundsCheck, errBounds_of_headerCheck,
      not_or, not_not, Nat.not_lt, and_assoc]
  case setCount =>
    rw [errBounds_of_roCheck, errBounds_of_otherCheck (by decide), errBounds_of_trailerChecks, Nat.not_lt]
  case updateCrc | clearCrc => rw [errBounds_of_roCheck, errBounds_of_trailerChecks]

end Sys2Proof.Machine
end

section
/-! Reset: what the host's Reset action leaves, and what FB holds after power-up
(spec/70_reset_and_hazards.md R200). -/

namespace Sys2Proof.Machine

/-- R200: the Reset action is taken and resets the registers; it returns nothing. -/
theorem step_reset {s : State} {rest : List HostAction} (hp : s.pending = .reset :: rest) :
    step s = .next ((resetRegisters { s with pending := rest }).respond .none) := by
  rw [step_of_pending hp, serve]

/-- R24: CTRL reads as RO in bit 0, all other bits 0. -/
theorem readRegAt_ctrl (s : State) : readRegAt s 0x00#8 = (BitVec.ofBool s.ro).setWidth 32 := rfl

/-- With RO = 0, CTRL reads 0. -/
theorem readRegAt_ctrl_of_not_ro {s : State} (hro : s.ro = false) : readRegAt s 0x00#8 = 0x00000000#32 := by
  rw [readRegAt_ctrl, hro]
  rfl

/-- R32: after power-up every byte of FB is the machine's fb_init. -/
theorem fbByte_reset {i : Nat} (hi : i < State.reset.cfg.fbCap) : State.reset.fbByte i = Config.fbInitByte i :=
  unlistedByte_machine hi

/-- Settles O17: of the block's state Reset writes the registers alone, and no byte of FB is listed at power-up. -/
theorem resetActionClearsRegistersAndKeepsFb : Obligations.ResetActionClearsRegistersAndKeepsFb := by
  refine ⟨fun s rest hp => ?_, fun i hi => fbByte_reset hi⟩
  refine ⟨_, step_reset hp, ?ro, readRegAt_ctrl_of_not_ro ?ro, ?base, ?arg, ?status, ?result, fun i => ?fb, ?cfg⟩
  case ro | base | arg | status | result | cfg => simp
  case fb =>
    rw [fbByte_respond, fbByte_resetRegisters]
    exact fbByte_congr rfl rfl i

end Sys2Proof.Machine
end

section
/-! The statements on the words of the commands (spec/30_encoding.md R73). -/

namespace Sys2Proof

/-- Settles O2, from the two directions `decode_encode` and `eq_encode_of_decode`. -/
theorem decodeAndEncodeAgree : Obligations.DecodeAndEncodeAgree :=
  ⟨fun i _ => decode_encode i, fun _ _ => eq_encode_of_decode⟩

/-- Settles O1: each word of the map is its command's own, and the decoder refuses the six others. -/
theorem opcodeMapWordsDecode : Obligations.OpcodeMapWordsDecode :=
  ⟨decode_encode .nop, decode_encode .init, decode_encode .isVrl, decode_encode .getLength, decode_encode .setLength,
    decode_encode .getCount, decode_encode .setCount, decode_encode .computeCrc, decode_encode .updateCrc,
    decode_encode .checkCrc, decode_encode .clearCrc, decode_encode .validate, by decide⟩

end Sys2Proof
end

section
/-! A command in two parts: its ordered checks and what it leaves where they pass, and what is said of every command by
induction over this form (spec/60_exceptions.md R182, R183). -/

namespace Sys2Proof.Machine

/-! ## The two parts -/

/-- The checks of a command, in R183's order. -/
def commandChecks (i : Instr) (s : State) : Checks :=
  match i with
  | .nop => []
  | .init => [(s.ro, .readOnly), (!s.headerFits 12, .bounds)]
  | .isVrl => [(!s.headerFits 4, .bounds)]
  | .getLength | .getCount | .validate => [(!s.headerFits 8, .bounds)]
  | .setLength =>
    [(s.ro, .readOnly), (decide (s.argVal % 4 ≠ 0) || decide (s.argVal < Config.minFrameLength), .arg),
      (decide (Config.maxFrameLength < s.argVal), .bounds), (!s.headerFits s.argVal, .bounds)]
  | .setCount => (s.ro, .readOnly) :: (decide (Config.countMax < s.argVal), .arg) :: trailerChecks s
  | .computeCrc | .checkCrc => trailerChecks s
  | .updateCrc | .clearCrc => (s.ro, .readOnly) :: trailerChecks s

/-- FB and RESULT as a command that passes its checks leaves them. -/
def commandEffect (i : Instr) (s : State) : State :=
  match i with
  | .nop | .isVrl | .validate => s
  | .init => ((s.setFbWord s.baseOff s.cfg.faw).setFbWord (s.baseOff + 4) 0x00000003#32).setFbWord (s.baseOff + 8)
      s.cfg.nocrc
  | .getLength => setResult ((headerLenWords s.word1).setWidth 32 * 4#32) s
  | .setLength => clearTrailerAt (s.baseOff + s.argVal - 4)
      (s.setFbWord (s.baseOff + 4) (packHeader (headerCount s.word1) (BitVec.ofNat 20 (s.argVal / 4))))
  | .getCount => setResult ((headerCount s.word1).setWidth 32) s
  | .setCount => clearTrailerAt s.trailerAddr
      (s.setFbWord (s.baseOff + 4) (packHeader (s.arg.extractLsb' 0 12) (headerLenWords s.word1)))
  | .computeCrc | .checkCrc => setResult s.frameCrc s
  | .updateCrc => setResult s.frameCrc (s.setFbWord s.trailerAddr s.frameCrc)
  | .clearCrc => clearTrailerAt s.trailerAddr s

/-- Every command runs its checks and, if they pass, has its effect and reports its flags. -/
theorem exec_eq_conclude (i : Instr) (s : State) :
    exec i s = .next (conclude (commandChecks i s) s (finish (reportedFlags i s) (commandEffect i s))) := by
  cases i <;> rfl

/-- What holds after every error, and after the command's own end where its checks pass, holds after ordered checks. -/
theorem conclude_induction {P : State → Prop} {checks : Checks} {s done : State}
    (herror : ∀ e, P (raiseCmdError e s)) (hdone : firstFailure checks = none → P done) :
    P (conclude checks s done) := by
  obtain ⟨e, -, -, h⟩ | ⟨hpass, h⟩ := conclude_cases checks s done
  · rw [h]; exact herror e
  · rw [h]; exact hdone hpass

/-- What holds after every error, and after each command that passes its checks, holds after every command word. -/
theorem issueCommand_induction {P : State → Prop} {s : State} (v : Word) (herror : ∀ e, P (raiseCmdError e s))
    (hdone : ∀ i, firstFailure (commandChecks i s) = none → P (finish (reportedFlags i s) (commandEffect i s))) :
    ∃ t, issueCommand v s = .next t ∧ P t := by
  obtain ⟨i, -, hexec⟩ | ⟨-, hillegal⟩ := issueCommand_cases v s
  · exact ⟨_, hexec.trans (exec_eq_conclude i s), conclude_induction herror (hdone i)⟩
  · exact ⟨_, hillegal, herror .illegal⟩

/-! ## What a command leaves alone (R84) -/

@[simp] theorem commandEffect_cfg (i : Instr) (s : State) : (commandEffect i s).cfg = s.cfg := by
  cases i <;> simp [commandEffect]
@[simp] theorem commandEffect_ro (i : Instr) (s : State) : (commandEffect i s).ro = s.ro := by
  cases i <;> simp [commandEffect]
@[simp] theorem commandEffect_base (i : Instr) (s : State) : (commandEffect i s).base = s.base := by
  cases i <;> simp [commandEffect]
@[simp] theorem commandEffect_arg (i : Instr) (s : State) : (commandEffect i s).arg = s.arg := by
  cases i <;> simp [commandEffect]
@[simp] theorem commandEffect_pending (i : Instr) (s : State) : (commandEffect i s).pending = s.pending := by
  cases i <;> simp [commandEffect]
@[simp] theorem commandEffect_response (i : Instr) (s : State) : (commandEffect i s).response = s.response := by
  cases i <;> simp [commandEffect]

/-- A command writes STATUS, RESULT and FB and no other field. -/
theorem issueCommand_frame (v : Word) (s : State) :
    ∃ t, issueCommand v s = .next t ∧ t = { s with status := t.status, result := t.result, fb := t.fb } :=
  issueCommand_induction v (fun _ => rfl) fun i _ => by apply State.eq_with_reports <;> simp

/-! ## What a command writes to FB -/

/-- `t` is `s` after word writes to FB, each inside the indices from `lo` to below `hi`. -/
inductive WordsWritten (lo hi : Nat) (s : State) : State → Prop where
  | none : WordsWritten lo hi s s
  | word {t : State} {a : Nat} (v : Word) (ht : WordsWritten lo hi s t) (hlo : lo ≤ a) (hhi : a + 4 ≤ hi) :
      WordsWritten lo hi s (t.setFbWord a v)

namespace WordsWritten

variable {lo hi : Nat} {s t : State}

theorem cfg_eq (h : WordsWritten lo hi s t) : t.cfg = s.cfg := by
  induction h with
  | none => rfl
  | word v _ _ _ ih => exact ih

/-- A byte outside the range is as it was. -/
theorem fbByte_outside (h : WordsWritten lo hi s t) {x : Nat} (hx : x < lo ∨ hi ≤ x) : t.fbByte x = s.fbByte x := by
  induction h with
  | none => rfl
  | word v _ hlo hhi ih => rw [fbByte_setFbWord_outside _ v (by omega), ih]

/-- Words written inside FB keep the canonical form. -/
theorem fb_wf (h : WordsWritten lo s.cfg.fbCap s t) (hwf : Memory.wf s.cfg s.fb) : Memory.wf t.cfg t.fb := by
  induction h with
  | none => exact hwf
  | word v ht _ hhi ih => exact wf_setFbWord ih (by rwa [ht.cfg_eq]) v

end WordsWritten

/-- The trailer of a frame that fits stands behind the header and inside FB. -/
theorem trailerAddr_bounds {s : State} (hok : s.storedLenOk = true) :
    s.baseOff + 8 ≤ s.trailerAddr ∧ s.trailerAddr + 4 ≤ s.cfg.fbCap := by
  obtain ⟨hmin, hlen⟩ := storedLenOk_iff.mp hok
  rw [State.trailerAddr]
  omega

/-- A command that uses the trailer checks the stored length first. -/
theorem storedLenOk_of_checks_pass {i : Instr} {s : State} (hi : i = .setCount ∨ i ∈ trailerCommands)
    (hpass : firstFailure (commandChecks i s) = none) : s.storedLenOk = true := by
  have hmem : (!s.storedLenOk, CmdError.malformed) ∈ commandChecks i s := by
    cases i <;> simp_all [commandChecks, trailerChecks, trailerCommands]
  simpa using firstFailure_eq_none.mp hpass _ hmem

/-- A command that passes its checks writes FB by whole words, from BASE on and below FB_CAP. -/
theorem commandEffect_writes (i : Instr) {s : State} (hpass : firstFailure (commandChecks i s) = none) :
    ∃ m, WordsWritten s.baseOff s.cfg.fbCap s m ∧ (commandEffect i s).fb = m.fb := by
  have hnone := firstFailure_eq_none.mp hpass
  cases i with
  | nop | isVrl | getLength | getCount | computeCrc | checkCrc | validate => exact ⟨s, .none, rfl⟩
  | init =>
    simp only [commandChecks, List.forall_mem_cons, Bool.not_eq_false', headerFits_iff] at hnone
    obtain ⟨-, hfits, -⟩ := hnone
    exact ⟨_, .word _ (.word _ (.word _ .none (by omega) (by omega)) (by omega) (by omega)) (by omega) (by omega), rfl⟩
  | setLength =>
    simp only [commandChecks, List.forall_mem_cons, Bool.not_eq_false', headerFits_iff, Bool.or_eq_false_iff,
      decide_eq_false_iff_not] at hnone
    obtain ⟨-, ⟨-, hmin⟩, -, hfits, -⟩ := hnone
    rw [Config.minFrameLength] at hmin
    exact ⟨_, .word _ (.word _ .none (by omega) (by omega)) (by omega) (by omega), rfl⟩
  | setCount =>
    obtain ⟨hbehind, hinside⟩ := trailerAddr_bounds (storedLenOk_of_checks_pass (.inl rfl) hpass)
    exact ⟨_, .word _ (.word _ .none (by omega) (by omega)) (by omega) hinside, rfl⟩
  | updateCrc | clearCrc =>
    obtain ⟨hbehind, hinside⟩ := trailerAddr_bounds (storedLenOk_of_checks_pass (.inr (by decide)) hpass)
    simp only [commandEffect, setResult_fb, clearTrailerAt_fb]
    exact ⟨_, .word _ .none (by omega) hinside, rfl⟩

end Sys2Proof.Machine
end

section
/-! What every step keeps: the parameters and the invariant of the state (spec/00_scope.md section 4). -/

namespace Sys2Proof.Machine

/-! ## The STATUS words that can occur -/

theorem errorStatus_mem (e : CmdError) : packStatus e.code {} ∈ statusWords := by cases e <;> decide

/-- The flags that a command lists make a STATUS word that can occur. -/
theorem reportedStatus_mem (i : Instr) (s : State) : packStatus 0x00#8 (reportedFlags i s) ∈ statusWords := by
  cases i with
  | isVrl =>
    rw [reportedFlags, packStatus_isvrl]
    split <;> decide
  | checkCrc =>
    rw [reportedFlags, packStatus_check]
    split_ifs <;> decide
  | validate =>
    rw [reportedFlags, packStatus_finding]
    cases validateReason s <;> decide
  | _ => exact packStatus_ok ▸ by decide

/-! ## The invariant -/

/-- The invariant speaks of the parameters, FB and STATUS alone. -/
theorem State.Inv.of_kept {s t : State} (h : s.Inv) (hcfg : t.cfg = s.cfg) (hfb : Memory.wf t.cfg t.fb)
    (hstatus : t.status ∈ statusWords) : t.Inv :=
  ⟨hcfg ▸ h.cfg_wf, hfb, hstatus⟩

/-- A command word keeps the invariant: an error leaves FB, and a success writes words inside it. -/
theorem issueCommand_keeps_inv (v : Word) {s : State} (h : s.Inv) :
    ∃ t, issueCommand v s = .next t ∧ t.Inv := by
  refine issueCommand_induction v (fun e => h.of_kept rfl h.fb_wf (errorStatus_mem e)) fun i hpass => ?_
  obtain ⟨m, hm, hfb⟩ := commandEffect_writes i hpass
  have hcfg : (finish (reportedFlags i s) (commandEffect i s)).cfg = s.cfg := by simp
  refine h.of_kept hcfg ?_ (reportedStatus_mem i s)
  rw [hcfg, finish_fb, hfb, ← hm.cfg_eq]
  exact hm.fb_wf h.fb_wf

/-- All that serving an action can do to the parameters, FB and STATUS: it issues a command, it writes one byte inside
FB, or it leaves the parameters and FB as they are and STATUS as it is or 0. -/
theorem serve_next_cases {a : HostAction} {s t : State} (h : serve a s = .next t) :
    (∃ v, issueCommand v (s.respond .done) = .next t) ∨
      (∃ i b, i < s.cfg.fbCap ∧ t = (s.setFbByte i b).respond .done) ∨
      (t.cfg = s.cfg ∧ t.fb = s.fb ∧ (t.status = s.status ∨ t.status = 0x00000000#32)) := by
  obtain ⟨-, hr⟩ | ⟨-, ⟨r, hr⟩ | ⟨off, width, v, -, hr⟩ | ⟨i, b, -, hi, hr⟩ | ⟨-, hr⟩⟩ := serve_cases a s
  all_goals rw [hr] at h
  · cases h
  · cases h; exact .inr (.inr ⟨rfl, rfl, .inl rfl⟩)
  · obtain ⟨-, hw⟩ | ⟨-, hw⟩ | ⟨-, hw⟩ | ⟨-, hw⟩ | ⟨-, -, -, -, hw⟩ := writeRegAt_cases (s.respond .done) off v
    case inr.inr.inr.inl => exact .inl ⟨v, hw.symm.trans h⟩
    all_goals rw [hw] at h; cases h; exact .inr (.inr ⟨rfl, rfl, .inl rfl⟩)
  · cases h; exact .inr (.inl ⟨i, b, hi, rfl⟩)
  · cases h; exact .inr (.inr ⟨rfl, rfl, .inr rfl⟩)

/-- Serving an action keeps the invariant. -/
theorem serve_keeps_inv {a : HostAction} {s t : State} (h : s.Inv) (hserve : serve a s = .next t) : t.Inv := by
  obtain ⟨v, hv⟩ | ⟨i, b, hi, rfl⟩ | ⟨hcfg, hfb, hstatus⟩ := serve_next_cases hserve
  · have hdone : (s.respond .done).Inv := h.of_kept rfl h.fb_wf h.status_mem
    obtain ⟨u, hu, hinv⟩ := issueCommand_keeps_inv v hdone
    cases hu.symm.trans hv
    exact hinv
  · exact h.of_kept rfl (wf_setFbByte h.fb_wf hi b) h.status_mem
  · refine h.of_kept hcfg (by rw [hcfg, hfb]; exact h.fb_wf) ?_
    obtain hstatus | hstatus := hstatus <;> rw [hstatus]
    · exact h.status_mem
    · decide

/-- Settles O40: a step waits or serves an action, and what the action writes to FB stays inside it. -/
theorem stepKeepsTheInvariant : Obligations.StepKeepsTheInvariant := by
  intro s t h hstep
  obtain ⟨-, hidle⟩ | ⟨a, rest, -, hserve⟩ := step_cases s
  · cases hidle.symm.trans hstep
    exact h
  · have htaken : State.Inv { s with pending := rest } := h.of_kept rfl h.fb_wf h.status_mem
    exact serve_keeps_inv htaken (hserve.symm.trans hstep)

/-- Settles O41: FB_CAP is at least 12 by its bound, no cell is listed, and STATUS is 0. -/
theorem resetHasTheInvariant : Obligations.ResetHasTheInvariant := by
  refine ⟨?_, wf_reset, by decide⟩
  have hlt := Config.fbCapRaw.isLt
  have hcap : State.reset.cfg.fbCap = max 12 Config.fbCapRaw.toNat := rfl
  rw [Config.wf, Bool.and_eq_true, decide_eq_true_iff, decide_eq_true_iff, hcap, Config.minFrameLength]
  omega

/-! ## The parameters -/

theorem serve_keeps_cfg {a : HostAction} {s t : State} (hserve : serve a s = .next t) : t.cfg = s.cfg := by
  obtain ⟨v, hv⟩ | ⟨i, b, -, rfl⟩ | ⟨hcfg, -, -⟩ := serve_next_cases hserve
  · obtain ⟨u, hu, hframe⟩ := issueCommand_frame v (s.respond .done)
    cases hu.symm.trans hv
    rw [hframe, respond_cfg]
  · rfl
  · exact hcfg

/-- Settles O42: neither waiting, serving an action nor a bus error changes a parameter. -/
theorem noStepChangesTheParameters : Obligations.NoStepChangesTheParameters := by
  intro s
  obtain ⟨-, hidle⟩ | ⟨a, rest, -, hserve⟩ := step_cases s
  · exact ⟨s, stepOn_of_next hidle, rfl⟩
  · obtain ⟨t, ht⟩ | hfault := serve_answers a { s with pending := rest }
    · exact ⟨t, stepOn_of_next (hserve.trans ht), (serve_keeps_cfg ht).trans rfl⟩
    · exact ⟨_, stepOn_of_fault (hserve.trans hfault), rfl⟩

end Sys2Proof.Machine
end

section
/-! The operands of the commands: that a register a command does not name makes no difference to it, which bytes it
writes, and which error each of its checks raises (spec/30_encoding.md R84, spec/60_exceptions.md R180, R183). -/

namespace Sys2Proof.Machine

/-! ## Registers that a command does not read -/

/-- A command whose checks, flags and effect do not depend on a field that is set beforehand does the same with it
set. -/
theorem exec_commutes {i : Instr} {s : State} (f : State → State)
    (herror : ∀ e t, f (raiseCmdError e t) = raiseCmdError e (f t))
    (hfinish : ∀ g t, f (finish g t) = finish g (f t))
    (hchecks : commandChecks i (f s) = commandChecks i s) (hflags : reportedFlags i (f s) = reportedFlags i s)
    (heffect : commandEffect i (f s) = f (commandEffect i s)) :
    ∃ t, exec i s = .next t ∧ exec i (f s) = .next (f t) := by
  refine ⟨_, exec_eq_conclude i s, ?_⟩
  rw [exec_eq_conclude, conclude_map f herror, hchecks, hflags, heffect, hfinish]

/-- Only SET_LENGTH, SET_COUNT and VALIDATE read ARG. -/
theorem exec_with_arg {i : Instr} (hi : i.readsArg = false) (s : State) (x : Word) :
    ∃ t, exec i s = .next t ∧ exec i { s with arg := x } = .next { t with arg := x } := by
  apply exec_commutes (fun t => { t with arg := x }) (fun _ _ => rfl) (fun _ _ => rfl) <;>
    cases i <;> simp only [Instr.readsArg, Bool.true_eq_false] at hi <;> rfl

/-- Only the mutating commands read CTRL.RO. -/
theorem exec_with_ro {i : Instr} (hi : i.mutating = false) (s : State) (b : Bool) :
    ∃ t, exec i s = .next t ∧ exec i { s with ro := b } = .next { t with ro := b } := by
  apply exec_commutes (fun t => { t with ro := b }) (fun _ _ => rfl) (fun _ _ => rfl) <;>
    cases i <;> simp only [Instr.mutating, Bool.true_eq_false] at hi <;> rfl

/-- Only the mutating commands write FB. -/
theorem exec_fb_of_not_mutating {i : Instr} {s t : State} (hi : i.mutating = false) (h : exec i s = .next t) :
    t.fb = s.fb := by
  cases (exec_eq_conclude i s).symm.trans h
  refine conclude_induction (P := fun t => t.fb = s.fb) (fun _ => rfl) fun _ => ?_
  cases i <;> simp only [Instr.mutating, Bool.true_eq_false] at hi <;> rfl

/-- Settles O9: a write to ARG stores it, and ARG is in the operands of no other command and in the writes of none. -/
theorem argIsReadByThreeCommandsAndWrittenByNone : Obligations.ArgIsReadByThreeCommandsAndWrittenByNone := by
  refine ⟨fun s v rest h => ⟨_, step_regWrite .arg h, rfl, fun more hread => step_regRead .arg hread⟩,
    fun i s x hlength hcount hvalidate => exec_with_arg ?_ s x, fun v s => ?_⟩
  · cases i <;> simp_all [Instr.readsArg]
  · obtain ⟨t, ht, hframe⟩ := issueCommand_frame v s
    exact ⟨t, ht, by rw [hframe]⟩

/-- Settles O37, from what a command leaves alone and what it does not read. -/
theorem commandsUseOnlyTheirOperands : Obligations.CommandsUseOnlyTheirOperands := by
  refine ⟨issueCommand_frame, fun i s b hinit hlength hcount hupdate hclear => ?_, fun s x m => ⟨_, rfl, rfl⟩⟩
  have hi : i.mutating = false := by cases i <;> simp_all [Instr.mutating]
  obtain ⟨t, ht, hro⟩ := exec_with_ro hi s b
  exact ⟨t, ht, exec_fb_of_not_mutating hi ht, hro⟩

/-- Settles O38: a command writes FB by words inside the indices from BASE to FB_CAP. -/
theorem commandsWriteOnlyInsideFbFromBase : Obligations.CommandsWriteOnlyInsideFbFromBase := by
  intro v s
  refine issueCommand_induction v (fun _ _ _ => rfl) fun i hpass a ha => ?_
  obtain ⟨m, hm, hfb⟩ := commandEffect_writes i hpass
  rw [fbByte_finish, fbByte_congr (by rw [commandEffect_cfg, hm.cfg_eq]) hfb, hm.fbByte_outside ha]

/-! ## Which check raises which error -/

/-- The first check that fails is the first one, or it passes and the others decide. -/
theorem firstFailure_cons_eq_some {b : Bool} {e e' : CmdError} {rest : Checks} :
    firstFailure ((b, e) :: rest) = some e' ↔ b = true ∧ e = e' ∨ b = false ∧ firstFailure rest = some e' := by
  cases b <;> simp

theorem CmdError.code_injective : Function.Injective CmdError.code := fun e e' h => by
  cases e <;> revert h <;> cases e' <;> decide

/-- STATUS.ERR after a command is the code of its first failing check, or OK where none fails. -/
theorem exec_statusErr (i : Instr) (s : State) :
    ∃ t, exec i s = .next t ∧ (statusErr t.status = 0x00#8 ↔ firstFailure (commandChecks i s) = none) ∧
      ∀ e : CmdError, statusErr t.status = e.code ↔ firstFailure (commandChecks i s) = some e := by
  refine ⟨_, exec_eq_conclude i s, ?_⟩
  rw [statusErr_conclude _ _ _ (by simp)]
  cases firstFailure (commandChecks i s) with
  | none => exact ⟨iff_of_true rfl rfl, fun e => iff_of_false e.code_ne_ok.symm nofun⟩
  | some e => exact ⟨iff_of_false e.code_ne_ok nofun, fun e' => by simp [CmdError.code_injective.eq_iff]⟩

theorem firstFailure_trailerChecks {s : State} {e : CmdError} :
    firstFailure (trailerChecks s) = some e ↔
      s.headerFits 8 = false ∧ .bounds = e ∨ s.headerFits 8 = true ∧ s.storedLenOk = false ∧ .malformed = e := by
  simp [trailerChecks, firstFailure_cons_eq_some]

/-- No command that decodes raises ERR_ILLEGAL. -/
theorem firstFailure_ne_illegal (i : Instr) (s : State) : firstFailure (commandChecks i s) ≠ some .illegal := by
  cases i <;> simp [commandChecks, firstFailure_cons_eq_some, firstFailure_trailerChecks]

/-- ERR_READ_ONLY comes from the mutating commands, whose first check it is. -/
theorem firstFailure_readOnly {i : Instr} {s : State} :
    firstFailure (commandChecks i s) = some .readOnly ↔ s.ro = true ∧ i.mutating = true := by
  cases i <;> simp [commandChecks, firstFailure_cons_eq_some, firstFailure_trailerChecks, Instr.mutating]

/-- ERR_ARG comes from the two commands that check ARG, behind the check of CTRL.RO. -/
theorem firstFailure_arg {i : Instr} {s : State} :
    firstFailure (commandChecks i s) = some .arg ↔ s.ro = false ∧
      (i = .setLength ∧ (s.argVal % 4 ≠ 0 ∨ s.argVal < Config.minFrameLength) ∨
        i = .setCount ∧ Config.countMax < s.argVal) := by
  cases i <;> simp [commandChecks, firstFailure_cons_eq_some, firstFailure_trailerChecks]

/-- ERR_MALFORMED comes from the commands that use the trailer, on a bad stored length. -/
theorem bad_length_of_firstFailure_malformed {i : Instr} {s : State}
    (h : firstFailure (commandChecks i s) = some .malformed) :
    (i = .setCount ∨ i = .computeCrc ∨ i = .updateCrc ∨ i = .checkCrc ∨ i = .clearCrc) ∧ s.storedLenOk = false := by
  cases i <;> simp_all [commandChecks, firstFailure_cons_eq_some, firstFailure_trailerChecks]

/-- Settles O34: each error code is that of one check, and the checks stand in the commands that R180 names. -/
theorem errorCodesComeFromTheirCommands : Obligations.ErrorCodesComeFromTheirCommands := by
  intro i s
  obtain ⟨t, ht, hok, hcode⟩ := exec_statusErr i s
  refine ⟨t, ht, ?_, ?_, fun h hnop => ?_, (hcode .arg).trans firstFailure_arg, fun h => ?_⟩
  · cases hfirst : firstFailure (commandChecks i s) with
    | none => exact .inl (hok.mpr hfirst)
    | some e =>
      have herr := (hcode e).mpr hfirst
      cases e with
      | illegal => exact absurd hfirst (firstFailure_ne_illegal i s)
      | readOnly => exact .inr (.inl herr)
      | bounds => exact .inr (.inr (.inl herr))
      | arg => exact .inr (.inr (.inr (.inl herr)))
      | malformed => exact .inr (.inr (.inr (.inr herr)))
  · refine (hcode .readOnly).trans (firstFailure_readOnly.trans (and_congr_right' ?_))
    cases i <;> simp [Instr.mutating]
  · subst hnop
    cases (hcode .bounds).mp h
  · obtain ⟨hi, hbad⟩ := bad_length_of_firstFailure_malformed ((hcode .malformed).mp h)
    exact ⟨hi, storedLenOk_eq_false_iff.mp hbad⟩

end Sys2Proof.Machine
end

section
/-! A byte outside the frame: two states that differ in one byte below BASE, or past the header and the stored frame,
run alike under every command word (spec/10_state.md section 3). -/

namespace Sys2Proof.Machine

/-- `u` is `s` with, at most, another byte at index `x` of FB. -/
structure AgreeOff (x : Nat) (s u : State) : Prop where
  others : ∃ m, u = { s with fb := m }
  byte : ∀ a, a ≠ x → u.fbByte a = s.fbByte a

/-- The index `x` is below BASE, or past both the header and the stored frame. -/
def OutsideFrame (x : Nat) (s : State) : Prop :=
  x < s.base.toNat ∨ (s.base.toNat + 8 ≤ x ∧ s.base.toNat + s.storedLen ≤ x)

theorem agreeOff_setFbByte (x : Nat) (b : Byte) (s : State) : AgreeOff x s (s.setFbByte x b) :=
  ⟨⟨_, rfl⟩, fun _ ha => fbByte_setFbByte_ne s b ha⟩

namespace AgreeOff

variable {x : Nat} {s u : State}

/-! ## The same update on both sides -/

theorem raiseCmdError (h : AgreeOff x s u) (e : CmdError) :
    AgreeOff x (Machine.raiseCmdError e s) (Machine.raiseCmdError e u) := by
  obtain ⟨⟨m, rfl⟩, hbyte⟩ := h
  exact ⟨⟨m, rfl⟩, hbyte⟩

theorem finish (h : AgreeOff x s u) (f : ResultFlags) : AgreeOff x (Machine.finish f s) (Machine.finish f u) := by
  obtain ⟨⟨m, rfl⟩, hbyte⟩ := h
  exact ⟨⟨m, rfl⟩, hbyte⟩

theorem setResult (h : AgreeOff x s u) (v : Word) : AgreeOff x (Machine.setResult v s) (Machine.setResult v u) := by
  obtain ⟨⟨m, rfl⟩, hbyte⟩ := h
  exact ⟨⟨m, rfl⟩, hbyte⟩

theorem setFbWord (h : AgreeOff x s u) (a : Nat) (v : Word) : AgreeOff x (s.setFbWord a v) (u.setFbWord a v) := by
  obtain ⟨⟨m, rfl⟩, hbyte⟩ := h
  refine ⟨⟨_, rfl⟩, fun y hy => ?_⟩
  rw [fbByte_setFbWord, fbByte_setFbWord, hbyte y hy]

/-! ## What both sides read alike -/

theorem cfg (h : AgreeOff x s u) : u.cfg = s.cfg := by obtain ⟨⟨m, rfl⟩, -⟩ := h; rfl
theorem ro (h : AgreeOff x s u) : u.ro = s.ro := by obtain ⟨⟨m, rfl⟩, -⟩ := h; rfl
theorem base (h : AgreeOff x s u) : u.base = s.base := by obtain ⟨⟨m, rfl⟩, -⟩ := h; rfl
theorem arg (h : AgreeOff x s u) : u.arg = s.arg := by obtain ⟨⟨m, rfl⟩, -⟩ := h; rfl

theorem baseOff (h : AgreeOff x s u) : u.baseOff = s.baseOff := congrArg BitVec.toNat h.base
theorem argVal (h : AgreeOff x s u) : u.argVal = s.argVal := congrArg BitVec.toNat h.arg

theorem headerFits (h : AgreeOff x s u) (n : Nat) : u.headerFits n = s.headerFits n := by
  rw [State.headerFits, State.headerFits, h.baseOff, h.cfg]

theorem fbWord (h : AgreeOff x s u) {a : Nat} (ha : x < a ∨ a + 4 ≤ x) : u.fbWord a = s.fbWord a := by
  rw [State.fbWord, State.fbWord, h.byte a (by omega), h.byte (a + 1) (by omega), h.byte (a + 2) (by omega),
    h.byte (a + 3) (by omega)]

theorem word0 (h : AgreeOff x s u) (hx : OutsideFrame x s) : u.word0 = s.word0 := by
  have hbase : s.baseOff = s.base.toNat := rfl
  rw [State.word0, State.word0, h.baseOff, h.fbWord]
  rw [OutsideFrame] at hx
  omega

theorem sameHeader (h : AgreeOff x s u) (hx : OutsideFrame x s) : SameHeader s u := by
  refine ⟨h.cfg, h.base, ?_⟩
  have hbase : s.baseOff = s.base.toNat := rfl
  rw [State.word1, State.word1, h.baseOff, h.fbWord]
  rw [OutsideFrame] at hx
  omega

/-- The body is empty or inside the stored frame. -/
theorem frameCrc (h : AgreeOff x s u) (hx : OutsideFrame x s) : u.frameCrc = s.frameCrc := by
  have hbase : s.baseOff = s.base.toNat := rfl
  rw [OutsideFrame] at hx
  rw [State.frameCrc, State.frameCrc, State.bodyBytes, State.bodyBytes, (h.sameHeader hx).storedLen, h.baseOff]
  exact congrArg crc32 (fbBytes_congr fun y hlo hhi => h.byte y (by omega))

/-- The trailer is inside the stored frame where the stored length is legal. -/
theorem trailer (h : AgreeOff x s u) (hx : OutsideFrame x s) (hmin : 12 ≤ s.storedLen) : u.trailer = s.trailer := by
  have haddr : s.trailerAddr = s.base.toNat + s.storedLen - 4 := rfl
  rw [State.trailer, State.trailer, (h.sameHeader hx).trailerAddr, h.fbWord]
  rw [OutsideFrame] at hx
  omega

/-- VALIDATE reads the trailer only behind its check of the stored length. -/
theorem validateReason (h : AgreeOff x s u) (hx : OutsideFrame x s) :
    Machine.validateReason u = Machine.validateReason s := by
  unfold Machine.validateReason
  rw [h.word0 hx, (h.sameHeader hx).storedLen, h.cfg, h.baseOff, h.arg, h.argVal, h.frameCrc hx]
  by_cases hmin : s.storedLen < Config.minFrameLength
  · rw [if_pos hmin, if_pos hmin]
  · rw [h.trailer hx (Nat.not_lt.mp hmin)]

/-! ## The two parts of a command -/

theorem commandChecks (h : AgreeOff x s u) (hx : OutsideFrame x s) (i : Instr) :
    Machine.commandChecks i u = Machine.commandChecks i s := by
  cases i <;>
    simp only [Machine.commandChecks, trailerChecks, h.headerFits, h.ro, h.argVal, (h.sameHeader hx).storedLenOk]

theorem reportedFlags (h : AgreeOff x s u) (hx : OutsideFrame x s) {i : Instr}
    (hpass : firstFailure (Machine.commandChecks i s) = none) :
    Machine.reportedFlags i u = Machine.reportedFlags i s := by
  cases i with
  | isVrl => rw [Machine.reportedFlags, Machine.reportedFlags, h.word0 hx, h.cfg]
  | checkCrc =>
    obtain ⟨hmin, -⟩ := storedLenOk_iff.mp (storedLenOk_of_checks_pass (.inr (by decide)) hpass)
    rw [Machine.reportedFlags, Machine.reportedFlags, h.trailer hx hmin, h.cfg, h.frameCrc hx]
  | validate => rw [Machine.reportedFlags, Machine.reportedFlags, h.validateReason hx]
  | _ => rfl

theorem commandEffect (h : AgreeOff x s u) (hx : OutsideFrame x s) (i : Instr) :
    AgreeOff x (Machine.commandEffect i s) (Machine.commandEffect i u) := by
  have hsame := h.sameHeader hx
  cases i <;>
    simp only [Machine.commandEffect, clearTrailerAt, setFbWord_cfg, h.baseOff, h.argVal, h.arg, h.cfg, hsame.word1,
      hsame.trailerAddr, h.frameCrc hx]
  case nop | isVrl | validate => exact h
  case init => exact ((h.setFbWord _ _).setFbWord _ _).setFbWord _ _
  case setLength | setCount => exact (h.setFbWord _ _).setFbWord _ _
  case getLength | getCount | computeCrc | checkCrc => exact h.setResult _
  case updateCrc => exact (h.setFbWord _ _).setResult _
  case clearCrc => exact h.setFbWord _ _

/-- The two sides run alike: the same check fails on both, or none does. -/
theorem exec (h : AgreeOff x s u) (hx : OutsideFrame x s) (i : Instr) :
    ∃ t w, Machine.exec i s = .next t ∧ Machine.exec i u = .next w ∧ AgreeOff x t w := by
  refine ⟨_, _, exec_eq_conclude i s, exec_eq_conclude i u, ?_⟩
  rw [h.commandChecks hx]
  obtain ⟨e, hfirst, -⟩ | ⟨hpass, -⟩ := conclude_cases (Machine.commandChecks i s) s s
  · simp only [conclude, hfirst]
    exact h.raiseCmdError e
  · simp only [conclude, hpass, h.reportedFlags hx hpass]
    exact (h.commandEffect hx i).finish _

theorem issueCommand (h : AgreeOff x s u) (hx : OutsideFrame x s) (v : Word) :
    ∃ t w, Machine.issueCommand v s = .next t ∧ Machine.issueCommand v u = .next w ∧ AgreeOff x t w := by
  unfold Machine.issueCommand
  cases decode v with
  | ok i => exact h.exec hx i
  | error _ => exact ⟨_, _, rfl, rfl, h.raiseCmdError .illegal⟩

end AgreeOff

/-- Settles O39: what a command reads of FB is the header and, behind the check of the stored length, the frame. -/
theorem bytesOutsideTheFrameDoNotMatter : Obligations.BytesOutsideTheFrameDoNotMatter := by
  intro v s x b hx
  obtain ⟨t, u, ht, hu, ⟨m, rfl⟩, hbyte⟩ := (agreeOff_setFbByte x b s).issueCommand hx v
  exact ⟨t, _, ht, hu, rfl, hbyte⟩

end Sys2Proof.Machine
end

section
/-! The statements on the host port: the order of the actions, the read of a register, words made of bytes, and a
command's report right behind it (spec/10_state.md section 2, spec/20_memory.md sections 2 and 5). -/

namespace Sys2Proof.Machine

/-- Settles O4, from the rule of a register write. -/
theorem cmdWriteRunsTheDecodedCommand : Obligations.CmdWriteRunsTheDecodedCommand := by
  intro s v i rest hp hdecode
  rw [step_regWrite .cmd hp, writeReg, issueCommand, hdecode]

/-- Settles O5: a step that does not wait has taken an action. -/
theorem idleStepChangesNothing : Obligations.IdleStepChangesNothing := by
  intro s hempty
  obtain ⟨-, hidle⟩ | ⟨a, rest, hp, -⟩ := step_cases s
  · exact hidle
  · cases hempty.symm.trans hp

/-- Settles O6: the action is answered where the block decodes it and gets the bus error elsewhere, and serving leaves
the further actions. -/
theorem actionsAreServedInIssueOrder : Obligations.ActionsAreServedInIssueOrder := by
  intro s a rest hp
  refine ⟨step_of_pending hp, fun hdecoded => ?_, step_of_not_decoded hp⟩
  obtain ⟨t, ht⟩ := serve_of_decoded (s := { s with pending := rest }) hdecoded
  have hstep : step s = .next t := (step_of_pending hp).trans ht
  exact ⟨t, hstep, stepOn_of_next hstep, serve_pending ht⟩

/-- The value at an offset, register by register (R23): CMD and the reserved offsets read 0. -/
theorem readRegAt_eq (s : State) (off : BitVec 8) :
    readRegAt s off =
      if off = 0x00#8 then (if s.ro then 0x00000001#32 else 0x00000000#32)
      else if off = 0x04#8 then s.base
      else if off = 0x08#8 then s.arg
      else if off = 0x10#8 then s.status
      else if off = 0x14#8 then s.result
      else 0x00000000#32 := by
  have hctrl : readReg s .ctrl = if s.ro then 0x00000001#32 else 0x00000000#32 := by
    rw [readReg]
    cases s.ro <;> rfl
  unfold readRegAt regAt
  split_ifs <;> simp_all [readReg]

/-- Settles O7, from the rule of an aligned read. -/
theorem regReadAnswersTheRegister : Obligations.RegReadAnswersTheRegister := by
  intro s off rest halign hp
  rw [step_regRead_aligned halign hp, readRegAt_eq]

/-- A run whose first action writes a byte inside FB goes on with that byte changed. -/
theorem runOn_fbWrite {s : State} {i : Nat} {b : Byte} {rest : List HostAction} (hi : i < s.cfg.fbCap)
    (hp : s.pending = .fbWrite i b :: rest) :
    ∃ t, (∀ n, runOn (n + 1) s = runOn n t) ∧ t.pending = rest ∧ t.cfg = s.cfg ∧
      ∀ x, t.fbByte x = if x = i then b else s.fbByte x :=
  ⟨{ s.setFbByte i b with pending := rest, response := .done },
    fun n => by simp only [runOn, stepOn_of_next (step_fbWrite hi hp)], rfl, rfl, fun x => fbByte_setFbByte s i x b⟩

/-- Settles O14: each host write stores its byte and leaves the three others, and a word is written byte by byte. -/
theorem wordsInFbAreBigEndian : Obligations.WordsInFbAreBigEndian := by
  refine ⟨fun s a b0 b1 b2 b3 rest hfits hp => ?_, fun s a v => ⟨?_, ?_, ?_, ?_, fbWord_setFbWord_same s a v,
    fun x hx => fbByte_setFbWord_outside s v hx⟩⟩
  · obtain ⟨t0, hrun0, hp0, hcfg0, hbyte0⟩ := runOn_fbWrite (by omega) hp
    obtain ⟨t1, hrun1, hp1, hcfg1, hbyte1⟩ := runOn_fbWrite (by rw [hcfg0]; omega) hp0
    obtain ⟨t2, hrun2, hp2, hcfg2, hbyte2⟩ := runOn_fbWrite (by rw [hcfg1, hcfg0]; omega) hp1
    obtain ⟨t3, hrun3, hp3, -, hbyte3⟩ := runOn_fbWrite (by rw [hcfg2, hcfg1, hcfg0]; omega) hp2
    refine ⟨t3, ?_, hp3, ?_⟩
    · rw [hrun0, hrun1, hrun2, hrun3, runOn]
    · simp [State.fbWord, hbyte3, hbyte2, hbyte1, hbyte0]
  all_goals simp [fbByte_setFbWord]

/-- Settles O15: the command leaves the further actions, and a read changes nothing of the block. -/
theorem statusReadSeesTheCommandBeforeIt : Obligations.StatusReadSeesTheCommandBeforeIt := by
  intro s v rest hp
  obtain ⟨t, ht, hframe⟩ := issueCommand_frame v
    { s with pending := .regRead 0x10#8 32 :: .regRead 0x14#8 32 :: rest, response := .done }
  have hpending : t.pending = .regRead 0x10#8 32 :: .regRead 0x14#8 32 :: rest := by rw [hframe]
  refine ⟨t, _, _, (step_regWrite .cmd hp).trans ht, step_regRead .status hpending, step_regRead .result rfl, ?_, rfl,
    rfl, rfl, rfl⟩
  rw [hpending]
  exact ht

/-- Settles O16: each register holds 0 and reads so, and no byte of FB is listed. -/
theorem resetStateHoldsTheResetValues : Obligations.ResetStateHoldsTheResetValues := by
  refine ⟨rfl, rfl, rfl, rfl, rfl, fun off => ?_, fun i hi => fbByte_reset hi⟩
  rw [readRegAt]
  cases regAt off with
  | none => rfl
  | some r => cases r <;> rfl

end Sys2Proof.Machine
end

section
/-! The statements on header word 1 as a format (spec/30_encoding.md R77, R78). -/

namespace Sys2Proof.Machine

/-- Settles O18, from the two fields of header word 1 as numbers. -/
theorem headerDecodesToCountAndLength : Obligations.HeaderDecodesToCountAndLength :=
  ⟨fun w1 => ⟨toNat_headerCount w1, headerLength_eq w1, headerLength_le w1⟩,
    fun _ => ⟨rfl, fun _ => ⟨rfl, length_fbBytes .., fun k h => getElem_fbBytes _ _ _ k h⟩⟩⟩

/-- R78: the two fields side by side are the count shifted over the length. -/
theorem packHeader_eq_or (c : BitVec 12) (l : BitVec 20) :
    packHeader c l = (c.setWidth 32 <<< 20) ||| l.setWidth 32 := by
  apply BitVec.eq_of_getLsbD_eq
  intro k hk
  have h32 : k < 32 := hk
  simp only [packHeader, BitVec.getLsbD_append, BitVec.getLsbD_or, BitVec.getLsbD_shiftLeft, BitVec.getLsbD_setWidth]
  by_cases hlow : k < 20
  · simp [hlow, h32]
  · simp [hlow, h32, BitVec.getLsbD_of_ge l k (Nat.not_lt.mp hlow), show k - 20 < 32 by omega]

/-- Settles O19: a legal count fits 12 bits and a legal length in words fits 20, so neither field loses a bit. -/
theorem headerEncodesCountAndLength : Obligations.HeaderEncodesCountAndLength := by
  intro c n hc hmod hmax
  have hcount : c < 2 ^ 12 := by omega
  have hwords : n / 4 < 2 ^ 20 := by omega
  refine ⟨?_, ?_, headerLength_packHeader _ hmod hmax⟩
  · rw [packHeader_eq_or, BitVec.setWidth_ofNat_of_le_of_lt (by decide) hcount,
      BitVec.setWidth_ofNat_of_le_of_lt (by decide) hwords]
  · rw [headerCount_packHeader, BitVec.toNat_ofNat, Nat.mod_eq_of_lt hcount]

end Sys2Proof.Machine
end

section
/-! The CRC as a linear function of the accumulator and the data: linearity, leading zeros, single-bit errors and the
MSB-first form (spec/41_crc_engine.md R137). -/

namespace Sys2Proof.Machine

/-! ## Linearity -/

/-- One iteration is linear in the accumulator and the data bit together. -/
theorem crcBit_xor (a b : Word) (d e : Bool) : crcBit (a ^^^ b) (d ^^ e) = crcBit a d ^^^ crcBit b e := by
  apply BitVec.eq_of_getLsbD_eq
  intro k hk
  simp only [BitVec.getLsbD_xor, getLsbD_crcBit _ _ k hk, Bool.and_xor_distrib_left, Bool.xor_assoc, Bool.xor_comm,
    Bool.xor_left_comm]

theorem crcOctet_xor (a b : Word) (v w : Byte) : crcOctet (a ^^^ b) (v ^^^ w) = crcOctet a v ^^^ crcOctet b w := by
  simp only [crcOctet, BitVec.getLsbD_xor, crcBit_xor]

theorem foldl_crcOctet_xor {xs ys : List Byte} (h : xs.length = ys.length) (a b : Word) :
    (List.zipWith (fun x y => x ^^^ y) xs ys).foldl crcOctet (a ^^^ b) =
      xs.foldl crcOctet a ^^^ ys.foldl crcOctet b := by
  induction xs generalizing ys a b with
  | nil =>
    obtain rfl := List.length_eq_zero_iff.mp h.symm
    rfl
  | cons x xs ih =>
    cases ys with
    | nil => cases h
    | cons y ys =>
      simp only [List.zipWith_cons_cons, List.foldl_cons, crcOctet_xor]
      exact ih (Nat.succ.inj h) _ _

theorem bitrev32_xor (a b : Word) : bitrev32 (a ^^^ b) = bitrev32 a ^^^ bitrev32 b := by
  apply BitVec.eq_of_getLsbD_eq
  intro k hk
  simp only [BitVec.getLsbD_xor, getLsbD_bitrev32 _ k hk]

theorem bitrev32_zero : bitrev32 0x00000000#32 = 0x00000000#32 := by
  simpa using bitrev32_xor 0x00000000#32 0x00000000#32

/-- Settles O45: each octet is linear, the bytes are taken from zero, and the reversal is linear. -/
theorem crcIsLinear : Obligations.CrcIsLinear := by
  intro xs ys hlen
  have hacc := foldl_crcOctet_xor hlen 0x00000000#32 0x00000000#32
  rw [BitVec.xor_self] at hacc
  rw [crc32, crcAcc, hacc, bitrev32_xor]
  rfl

/-! ## Zeros -/

/-- Zero octets keep a zero accumulator. -/
theorem foldl_crcOctet_zeros (n : Nat) : (List.replicate n 0x00#8).foldl crcOctet 0x00000000#32 = 0x00000000#32 := by
  have hzero : crcOctet 0x00000000#32 0x00#8 = 0x00000000#32 := by decide
  induction n with
  | zero => rfl
  | succ n ih => rw [List.replicate_succ, List.foldl_cons, hzero, ih]

/-- Settles O46: after zero octets the accumulator is as it started. -/
theorem crcIgnoresLeadingZeros : Obligations.CrcIgnoresLeadingZeros := by
  intro n xs
  constructor
  · rw [crc32, crcAcc, foldl_crcOctet_zeros, bitrev32_zero]
  · rw [crc32, crcAcc, List.foldl_append, foldl_crcOctet_zeros]
    rfl

/-! ## Single-bit errors -/

/-- One iteration without data takes only the zero accumulator to zero: bit 31 of the polynomial, which the shift leaves
free, shows bit 0. -/
theorem eq_zero_of_crcBit_eq_zero {c : Word} (h : crcBit c false = 0x00000000#32) : c = 0x00000000#32 := by
  have hbit (k : Nat) (hk : k < 32) :
      ((decide (k < 31) && c.getLsbD (k + 1)) ^^ (Config.crcPoly.getLsbD k && c.getLsbD 0)) = false := by
    have hk' := getLsbD_crcBit c false k hk
    rw [h, BitVec.getLsbD_zero, Bool.xor_false] at hk'
    exact hk'.symm
  have hpoly : Config.crcPoly.getLsbD 31 = true := by decide
  have hlow : c.getLsbD 0 = false := by simpa [hpoly] using hbit 31 (by decide)
  apply BitVec.eq_of_getLsbD_eq
  intro k hk
  rw [BitVec.getLsbD_zero]
  cases k with
  | zero => exact hlow
  | succ k =>
    have hk' := hbit k (by omega)
    rwa [hlow, Bool.and_false, Bool.xor_false, decide_eq_true (by omega), Bool.true_and] at hk'

theorem crcBit_injective (d : Bool) : Function.Injective fun c => crcBit c d := by
  intro a b h
  have hxor : crcBit (a ^^^ b) false = 0x00000000#32 := by
    rw [← Bool.xor_self d, crcBit_xor, show crcBit a d = crcBit b d from h, BitVec.xor_self]
  exact BitVec.xor_eq_zero_iff.mp (eq_zero_of_crcBit_eq_zero hxor)

theorem crcOctet_injective (v : Byte) : Function.Injective fun c => crcOctet c v := fun a b h => by
  iterate 8 apply crcBit_injective at h
  exact h

/-- Equal accumulators after the same bytes were equal before them. -/
theorem foldl_crcOctet_injective (xs : List Byte) : Function.Injective fun c => xs.foldl crcOctet c := by
  induction xs with
  | nil => exact fun a b h => h
  | cons x xs ih => exact ih.comp (crcOctet_injective x)

theorem bitrev32_injective : Function.Injective bitrev32 :=
  Function.LeftInverse.injective (g := bitrev32) fun x => BitVec.eq_of_getLsbD_eq fun k hk => by
    rw [getLsbD_bitrev32 _ k hk, getLsbD_bitrev32 x (31 - k) (by omega), Nat.sub_sub_self (Nat.le_of_lt_succ hk)]

/-- A flipped bit alone, from a zero accumulator, leaves an accumulator that is not zero. -/
theorem crcOctet_flip_ne_zero : ∀ j < 8, crcOctet 0x00000000#32 (0x01#8 <<< j) ≠ 0x00000000#32 := by decide

/-- An octet with one bit flipped leaves another accumulator. -/
theorem crcOctet_flip_ne (c : Word) (v : Byte) {j : Nat} (hj : j < 8) :
    crcOctet c (v ^^^ (0x01#8 <<< j)) ≠ crcOctet c v := by
  intro h
  rw [← BitVec.xor_zero (x := c), crcOctet_xor, BitVec.xor_zero] at h
  exact crcOctet_flip_ne_zero j hj (by simpa using h)

/-- Settles O47: the flipped octet leaves another accumulator, and neither the bytes behind it nor the reversal make two
accumulators one. -/
theorem crcDetectsEverySingleBitError : Obligations.CrcDetectsEverySingleBitError := by
  intro xs ys v j hj h
  have hacc := bitrev32_injective h
  simp only [crcAcc, List.foldl_append, List.foldl_cons] at hacc
  exact crcOctet_flip_ne _ v hj (foldl_crcOctet_injective ys hacc)

/-! ## The MSB-first form -/

/-- The polynomial of the MSB-first form is the block's with its bits reversed. -/
theorem getLsbD_msbPoly : ∀ k < 32, (0x04C11DB7#32).getLsbD k = Config.crcPoly.getLsbD (31 - k) := by decide

/-- One iteration of the MSB-first form is one of the block's, seen through the reversal. -/
theorem crcMsbBit_bitrev32 (c : Word) (d : Bool) : crcMsbBit (bitrev32 c) d = bitrev32 (crcBit c d) := by
  apply BitVec.eq_of_getLsbD_eq
  intro k hk
  have hlow : (bitrev32 c).getLsbD 31 = c.getLsbD 0 := getLsbD_bitrev32 c 31 (by decide)
  have hmask (b : Bool) : (if b then 0x04C11DB7#32 else 0x00000000#32 : Word).getLsbD k =
      (Config.crcPoly.getLsbD (31 - k) && b) := by
    cases b
    · simp
    · simpa using getLsbD_msbPoly k hk
  rw [getLsbD_bitrev32 _ k hk, getLsbD_crcBit _ _ (31 - k) (by omega), crcMsbBit, BitVec.getLsbD_xor, hlow, hmask,
    BitVec.getLsbD_shiftLeft]
  congr 1
  cases k with
  | zero => rfl
  | succ k =>
    rw [Nat.succ_sub_one, getLsbD_bitrev32 c k (by omega), show 31 - (k + 1) + 1 = 31 - k by omega]
    rw [decide_eq_true hk, decide_eq_true (show 31 - (k + 1) < 31 by omega)]
    rfl

theorem foldl_crcMsbBit_octetBits (c : Word) (v : Byte) :
    (octetBits v).foldl crcMsbBit (bitrev32 c) = bitrev32 (crcOctet c v) := by
  have hbits : octetBits v = [v.getLsbD 0, v.getLsbD 1, v.getLsbD 2, v.getLsbD 3, v.getLsbD 4, v.getLsbD 5, v.getLsbD 6,
    v.getLsbD 7] := rfl
  rw [hbits]
  simp only [List.foldl_cons, List.foldl_nil, crcMsbBit_bitrev32, crcOctet]

theorem foldl_crcMsbBit_flatMap (xs : List Byte) (c : Word) :
    (xs.flatMap octetBits).foldl crcMsbBit (bitrev32 c) = bitrev32 (xs.foldl crcOctet c) := by
  induction xs generalizing c with
  | nil => rfl
  | cons x xs ih => rw [List.flatMap_cons, List.foldl_append, foldl_crcMsbBit_octetBits, ih, List.foldl_cons]

/-- Settles O48: the two accumulators are each other's reversal after every bit, and both start at zero. -/
theorem crcEqualsTheMsbFirstForm : Obligations.CrcEqualsTheMsbFirstForm := by
  intro xs
  have h := foldl_crcMsbBit_flatMap xs 0x00000000#32
  rwa [bitrev32_zero] at h

end Sys2Proof.Machine
end

section
/-! The statements on commands in sequence: a sealed frame, one with a flipped body bit, and the frames that INIT,
SET_LENGTH and SET_COUNT leave (spec/40_header_codec.md, spec/41_crc_engine.md section 2,
spec/42_control_and_validation.md). -/

namespace Sys2Proof.Machine

/-! ## A sealed frame -/

/-- With the header kept, the body has the same CRC where its bytes are kept too. -/
theorem SameHeader.frameCrc {s t : State} (h : SameHeader s t)
    (hbody : ∀ x, x < s.trailerAddr → t.fbByte x = s.fbByte x) : t.frameCrc = s.frameCrc := by
  have haddr : s.trailerAddr = s.baseOff + s.storedLen - 4 := rfl
  have hbase : t.baseOff = s.baseOff := congrArg BitVec.toNat h.base
  rw [State.frameCrc, State.frameCrc, State.bodyBytes, State.bodyBytes, h.storedLen, hbase]
  exact congrArg crc32 (fbBytes_congr fun x hlo hhi => hbody x (by omega))

/-- What UPDATE_CRC leaves on a whole frame: the CRC in the trailer and in RESULT, every other byte as it was, and so a
body with the same CRC. -/
structure Sealed (s t : State) : Prop where
  header : SameHeader s t
  ro : t.ro = s.ro
  trailer : t.trailer = s.frameCrc
  result : t.result = s.frameCrc
  outside : ∀ x, x < s.trailerAddr ∨ s.trailerAddr + 4 ≤ x → t.fbByte x = s.fbByte x

theorem Sealed.frameCrc {s t : State} (h : Sealed s t) : t.frameCrc = s.frameCrc :=
  h.header.frameCrc fun x hx => h.outside x (.inl hx)

theorem exec_updateCrc_sealed {s : State} (hro : s.ro = false) (hok : s.storedLenOk = true) :
    ∃ t, exec .updateCrc s = .next t ∧ Sealed s t := by
  obtain ⟨t, ht, hheader, htrailer⟩ := exec_updateCrc_seals hro hok
  have heq := Host.Outcome.next.inj (ht.symm.trans (exec_updateCrc_of_ok hro hok))
  obtain ⟨hstate, -, houtside⟩ := word_and_result_written heq
  exact ⟨t, ht, hheader, by rw [hstate], htrailer, by rw [hstate], houtside⟩

/-- The trailer's bytes are kept where the trailer is kept. -/
theorem SameHeader.fbByte_trailer {s t : State} (h : SameHeader s t) (htrailer : t.trailer = s.trailer) {x : Nat}
    (hlo : s.trailerAddr ≤ x) (hhi : x < s.trailerAddr + 4) : t.fbByte x = s.fbByte x := by
  rw [State.trailer, State.trailer, h.trailerAddr] at htrailer
  exact fbByte_eq_of_fbWord_eq htrailer hlo hhi

/-- A sealed frame that is sealed again has every byte as it was. -/
theorem Sealed.again {s t w : State} (h : Sealed s t) (h' : Sealed t w) (x : Nat) : w.fbByte x = t.fbByte x := by
  by_cases hx : x < t.trailerAddr ∨ t.trailerAddr + 4 ≤ x
  · exact h'.outside x hx
  · have htrailer : w.trailer = t.trailer := by rw [h'.trailer, h.frameCrc, h.trailer]
    exact h'.header.fbByte_trailer htrailer (by omega) (by omega)

/-- Settles O49: sealing keeps the body, so the CRC is computed again and found in the trailer. -/
theorem updatedFrameChecksOk : Obligations.UpdatedFrameChecksOk := by
  intro s hro _ hmin hlen
  have hok : s.storedLenOk = true := storedLenOk_iff.mpr ⟨hmin, hlen⟩
  obtain ⟨t, ht, hsealed⟩ := exec_updateCrc_sealed hro hok
  have hok_t : t.storedLenOk = true := hsealed.header.storedLenOk.trans hok
  obtain ⟨w, hw, hagain⟩ := exec_updateCrc_sealed (hsealed.ro.trans hro) hok_t
  have hmatch : t.trailer = t.frameCrc := by rw [hsealed.trailer, hsealed.frameCrc]
  have hresult : t.frameCrc = t.result := by rw [hsealed.frameCrc, hsealed.result]
  refine ⟨t, _, w, ht, exec_checkCrc_of_ok hok_t, ?_, ?_, hresult, hw, hagain.result.trans hresult,
    hsealed.again hagain⟩
  all_goals
    simp only [hmatch, if_true]
    split_ifs <;> decide

/-! ## A flipped body bit -/

/-- R137 item 4, for the octet at place `k` of a byte string. -/
theorem crc32_set_flip_ne {xs : List Byte} {k j : Nat} (hk : k < xs.length) (hj : j < 8) :
    crc32 (xs.set k (xs[k] ^^^ (0x01#8 <<< j))) ≠ crc32 xs := by
  have h := crcDetectsEverySingleBitError (xs.take k) (xs.drop (k + 1)) xs[k] j hj
  rw [← List.drop_eq_getElem_cons hk, List.take_append_drop] at h
  rwa [List.set_eq_take_append_cons_drop, if_pos hk]

/-- FB after a host's write. -/
theorem fbByte_of_serve_fbWrite {s m : State} {x : Nat} {b : Byte} (h : serve (.fbWrite x b) s = .next m) (a : Nat) :
    m.fbByte a = if a = x then b else s.fbByte a := by
  rw [serve] at h
  split_ifs at h
  cases h
  exact fbByte_setFbByte s x a b

/-- The body after its byte at place `k` is changed. -/
theorem SameHeader.bodyBytes_set {s m : State} {k : Nat} {b : Byte} (h : SameHeader s m)
    (hbyte : ∀ x, m.fbByte x = if x = s.baseOff + 8 + k then b else s.fbByte x) :
    m.bodyBytes = s.bodyBytes.set k b := by
  have hbase : m.baseOff = s.baseOff := congrArg BitVec.toNat h.base
  have hlen : m.bodyBytes.length = (s.bodyBytes.set k b).length := by
    simp only [State.bodyBytes, List.length_set, length_fbBytes, h.storedLen]
  refine List.ext_getElem hlen fun n hn hn' => ?_
  simp only [State.bodyBytes, List.getElem_set, getElem_fbBytes, hbyte, hbase, Nat.add_left_cancel_iff, eq_comm]

/-- Settles O50: the header and the trailer are kept, and the CRC of the changed body is another. -/
theorem bodyBitFlipIsDetected : Obligations.BodyBitFlipIsDetected := by
  intro s k j hro _ hmin hlen hk hj hsentinel
  have hok : s.storedLenOk = true := storedLenOk_iff.mpr ⟨hmin, hlen⟩
  have haddr : s.trailerAddr = s.baseOff + s.storedLen - 4 := rfl
  have hbase : s.base.toNat = s.baseOff := rfl
  have hkbody : k < s.bodyBytes.length := by rwa [State.bodyBytes, length_fbBytes]
  obtain ⟨t, ht, hsealed⟩ := exec_updateCrc_sealed hro hok
  have hbase_t : t.baseOff = s.baseOff := congrArg BitVec.toNat hsealed.header.base
  have hok_t : t.storedLenOk = true := hsealed.header.storedLenOk.trans hok
  obtain ⟨m, hm, hheader, htrailer⟩ := serve_fbWrite_body (s := t) (x := s.base.toNat + 8 + k)
    (s.fbByte (s.base.toNat + 8 + k) ^^^ (0x01#8 <<< j)) hok_t (by omega) (by rw [hsealed.header.trailerAddr]; omega)
  have hbody_t : t.bodyBytes = s.bodyBytes := by
    rw [State.bodyBytes, State.bodyBytes, hsealed.header.storedLen, hbase_t]
    exact fbBytes_congr fun x hlo hhi => hsealed.outside x (.inl (by omega))
  have hflip : m.bodyBytes = s.bodyBytes.set k (s.bodyBytes[k] ^^^ (0x01#8 <<< j)) := by
    have hbyte : s.bodyBytes[k] = s.fbByte (s.base.toNat + 8 + k) := getElem_fbBytes _ _ _ k hkbody
    rw [hbyte, ← hbody_t]
    exact hheader.bodyBytes_set fun x => by rw [hbase_t]; exact fbByte_of_serve_fbWrite hm x
  have hcrc : m.frameCrc ≠ s.frameCrc := by
    rw [State.frameCrc, hflip]
    exact crc32_set_flip_ne hkbody hj
  refine ⟨t, m, _, ht, hm, exec_checkCrc_of_ok (hheader.storedLenOk.trans hok_t), ?_⟩
  rw [htrailer, hsealed.trailer, hheader.cfg, hsealed.header.cfg]
  simp only [if_neg hsentinel, if_neg hcrc.symm]

/-! ## A new length, a new count and a new frame -/

/-- Settles O52: the header word holds ARG behind the old count, and the word at the new trailer is the sentinel. -/
theorem setLengthIsReflectedByGetLength : Obligations.SetLengthIsReflectedByGetLength := by
  intro s hro hmod hmin hmax hfits
  obtain ⟨-, hset, -⟩ := setLengthWritesLengthAndClearsTrailer
  obtain ⟨t, ht, hstate, hcount, hlength, htrailer, -⟩ := hset s hro hmod hmin hmax hfits
  have hcfg : t.cfg = s.cfg := by rw [hstate]
  have hbase : t.base = s.base := by rw [hstate]
  have hlen : t.storedLen = s.arg.toNat := by
    rw [State.storedLen, State.word1, State.baseOff, hbase, hlength]
  have hcount' : headerCount t.word1 = headerCount s.word1 := by
    rw [State.word1, State.baseOff, hbase, hcount, State.word1, State.baseOff]
  have hheader : s.base.toNat + 8 ≤ s.cfg.fbCap := by omega
  have hheader_t : t.base.toNat + 8 ≤ t.cfg.fbCap := by rwa [hbase, hcfg]
  refine ⟨t, _, _, _, ht, exec_getLength t, ?_, exec_getCount t, exec_getCount s, ?_, hlen, ?_⟩
  · rw [if_neg (Nat.not_lt.mpr hheader_t), finish_result, setResult_result, hlen, BitVec.ofNat_toNat, BitVec.setWidth_eq]
  · rw [if_neg (Nat.not_lt.mpr hheader_t), if_neg (Nat.not_lt.mpr hheader), finish_result, setResult_result,
      finish_result, setResult_result, hcount']
  · rw [State.trailer, State.trailerAddr, State.baseOff, hlen, hbase, htrailer]

/-- Settles O53: the header word holds ARG as the count in front of the old length, and the trailer is the sentinel. -/
theorem setCountIsReflectedByGetCount : Obligations.SetCountIsReflectedByGetCount := by
  intro s hro harg hheader hmin hfits
  obtain ⟨-, hset, -⟩ := setCountWritesCountAndClearsTrailer
  obtain ⟨t, ht, hstate, hcount, hlength, htrailer, -⟩ := hset s hro harg hheader hmin hfits
  have hcfg : t.cfg = s.cfg := by rw [hstate]
  have hbase : t.base = s.base := by rw [hstate]
  have hlen : t.storedLen = s.storedLen := by
    rw [State.storedLen, State.word1, State.baseOff, hbase, headerLength, hlength]
    rfl
  have hok : t.storedLenOk = true := storedLenOk_iff.mpr (by rw [hlen, hcfg, State.baseOff, hbase]; exact ⟨hmin, hfits⟩)
  have hsentinel : t.trailer = t.cfg.nocrc := by
    rw [State.trailer, State.trailerAddr, State.baseOff, hlen, hbase, htrailer, hcfg]
  have hheader_t : t.base.toNat + 8 ≤ t.cfg.fbCap := by rwa [hbase, hcfg]
  refine ⟨t, _, _, ht, exec_getCount t, ?_, hlen, exec_checkCrc_of_sentinel hok hsentinel, rfl⟩
  rw [if_neg (Nat.not_lt.mpr hheader_t), finish_result, setResult_result]
  apply BitVec.eq_of_toNat_eq
  rw [BitVec.toNat_setWidth_of_le (by decide), State.word1, State.baseOff, hbase, hcount]

/-- A frame is valid only where a check that has another finding passes. -/
theorem finding_eq_valid_iff {r r' : Reason} (hr : r ≠ .valid) (p : Prop) [Decidable p] :
    (if p then r else r') = .valid ↔ ¬p ∧ r' = .valid := by
  by_cases h : p <;> simp [h, hr]

/-- VALIDATE finds a frame valid exactly when each of its five checks passes (R161). -/
theorem validateReason_eq_valid_iff {s : State} :
    validateReason s = .valid ↔ s.word0 = s.cfg.faw ∧ 12 ≤ s.storedLen ∧ s.baseOff + s.storedLen ≤ s.cfg.fbCap ∧
      (s.arg = Config.noExpect ∨ s.storedLen = s.argVal) ∧ (s.trailer = s.cfg.nocrc ∨ s.trailer = s.frameCrc) := by
  unfold validateReason
  rw [finding_eq_valid_iff (by decide), finding_eq_valid_iff (by decide), finding_eq_valid_iff (by decide),
    finding_eq_valid_iff (by decide), finding_eq_valid_iff (by decide)]
  simp only [Config.minFrameLength, Nat.not_lt, not_and_or, ne_eq, not_not, and_true]

/-- Settles O54: INIT's frame has the alignment word, the length 12, an empty body and the sentinel for a trailer. -/
theorem initFrameValidates : Obligations.InitFrameValidates := by
  intro s hro hfits
  obtain ⟨-, hinit, -⟩ := initWritesTheMinimalFrame
  obtain ⟨t, ht, hstate, hfaw, hword1, hnocrc, -⟩ := hinit s hro hfits
  have hcfg : t.cfg = s.cfg := by rw [hstate]
  have hbase : t.base = s.base := by rw [hstate]
  have hlen : t.storedLen = 12 := by
    rw [State.storedLen, State.word1, State.baseOff, hbase, hword1]
    decide
  have hok : t.storedLenOk = true := storedLenOk_iff.mpr (by rw [hlen, hcfg, State.baseOff, hbase]; omega)
  have hsentinel : t.trailer = t.cfg.nocrc := by
    rw [State.trailer, State.trailerAddr, State.baseOff, hlen, hbase, hcfg]
    exact hnocrc
  have hempty : t.frameCrc = 0x00000000#32 := by
    rw [State.frameCrc, State.bodyBytes, hlen]
    exact bitrev32_zero
  have hword0 : t.word0 = t.cfg.faw := by rw [State.word0, State.baseOff, hbase, hfaw, hcfg]
  have hvalid (x : Word) (hx : x = Config.noExpect ∨ t.storedLen = x.toNat) :
      exec .validate { t with arg := x } = .next { t with arg := x, status := 0x00000800#32 } := by
    have hreason : validateReason { t with arg := x } = .valid :=
      validateReason_eq_valid_iff.mpr ⟨hword0, hlen.ge, (storedLenOk_iff.mp hok).2, hx, .inl hsentinel⟩
    rw [exec_validate_of_header_fits (by rw [hcfg, hbase]; omega), hreason]
    rfl
  exact ⟨t, _, _, _, ht, hvalid _ (.inl rfl), rfl, hvalid _ (.inr hlen), rfl,
    exec_checkCrc_of_sentinel hok hsentinel, rfl, hempty⟩

/-- VALID after VALIDATE: the header fits and every check passes. -/
theorem exec_validate_valid (s : State) :
    ∃ t, exec .validate s = .next t ∧
      (statusValid t.status = true ↔ s.base.toNat + 8 ≤ s.cfg.fbCap ∧ validateReason s = .valid) := by
  refine ⟨_, exec_validate s, ?_⟩
  split_ifs with hout
  · rw [raiseCmdError_status, statusValid_packStatus]
    exact iff_of_false (by decide) fun h => absurd h.1 (Nat.not_le.mpr hout)
  · rw [finish_status, statusValid_packStatus, beq_iff_eq]
    exact (and_iff_right (Nat.not_lt.mp hout)).symm

/-- CRCOK after CHECK_CRC on a whole frame. -/
theorem exec_checkCrc_crcOk {s : State} (hok : s.storedLenOk = true) :
    ∃ u, exec .checkCrc s = .next u ∧
      (statusCrcOk u.status = true ↔ s.trailer = s.cfg.nocrc ∨ s.trailer = s.frameCrc) := by
  refine ⟨_, rfl, ?_⟩
  rw [conclude_trailerChecks_of_ok hok, finish_status, statusCrcOk_packStatus, Bool.or_eq_true, beq_iff_eq, beq_iff_eq]

/-- Settles O55: VALIDATE's last check is CHECK_CRC's, and a frame that passes the others is whole. -/
theorem validFramePassesEveryCheck : Obligations.ValidFramePassesEveryCheck := by
  intro s
  obtain ⟨t, ht, hvalid⟩ := exec_validate_valid s
  have hbase : s.base.toNat = s.baseOff := rfl
  by_cases hok : s.storedLenOk = true
  · obtain ⟨u, hu, hcrcok⟩ := exec_checkCrc_crcOk hok
    obtain ⟨hmin, hlen⟩ := storedLenOk_iff.mp hok
    refine ⟨t, u, ht, hu, ?_⟩
    rw [hvalid, hcrcok, validateReason_eq_valid_iff]
    exact and_iff_right (by omega)
  · obtain ⟨u, hu⟩ := exec_answers .checkCrc s
    refine ⟨t, u, ht, hu, ?_⟩
    rw [hvalid, validateReason_eq_valid_iff]
    refine iff_of_false ?_ ?_
    · rintro ⟨-, -, hmin, hlen, -⟩
      exact hok (storedLenOk_iff.mpr ⟨hmin, hlen⟩)
    · rintro ⟨-, hmin, hlen, -⟩
      exact hok (storedLenOk_iff.mpr ⟨hmin, hlen⟩)

end Sys2Proof.Machine
end
